-- ==== Sys2Proof/Word.lean ====
section
/-! DEFINITION. The widths of the machine's values (spec/00_scope.md R10, R11, R12): a nibble names a
register, a byte is a register's or a memory cell's contents, a 12-bit field is an immediate address, a
16-bit word is an opcode, an address register, a program counter or a stack entry. -/

namespace Sys2Proof

/-- A 4-bit field: the `x`, `y` and `n` fields of an opcode, and the index of a V register. -/
abbrev Nibble := BitVec 4

/-- An 8-bit value: a V register, a memory byte, the `kk` field. -/
abbrev Byte := BitVec 8

/-- A 12-bit value: the `nnn` field. -/
abbrev Addr12 := BitVec 12

/-- A 16-bit value: an opcode, `pc`, `I`, a call-stack entry. -/
abbrev Word := BitVec 16

end Sys2Proof
end

