-- ==== Sys2Proof/Config.lean ====
section
/-! DEFINITION. What one instance of the hardware fixes at build time (spec/00_scope.md R10), and the one
value the spec leaves free, the random byte of a STEP (spec/40_step.md R93). The parameters are fixed for a
whole instance and no program or host can change them (spec/90_conflicts.md C10). -/

namespace Sys2Proof

/-- `PROFILE` (R2, R10): which instructions exist. -/
inductive Profile where
  | source
  | extended
  deriving DecidableEq, Repr

/-- `ZERO_GROUP_DECODE` (R10, R75): how the words 0x0nnn are decoded. -/
inductive ZeroGroupDecode where
  | exact
  | lowNibble
  deriving DecidableEq, Repr

/-- `STACK_DEPTH` (R10, R31): an integer of at least 1, or unbounded. -/
inductive StackDepth where
  | bounded (depth : Nat)
  | unbounded
  deriving DecidableEq, Repr

/-- `SHIFT_SOURCE` (R10, R178): the register that SHR and SHL shift. -/
inductive ShiftSource where
  | vx
  | vy
  deriving DecidableEq, Repr

/-- The build-time parameters of one instance (R10). The fixed sizes of R10 (memory, registers,
framebuffer, load base) are in the types and operations of the machine. -/
structure Config where
  profile              : Profile
  zeroGroupDecode      : ZeroGroupDecode
  stackDepth           : StackDepth
  shiftSource          : ShiftSource
  logicResetsVF        : Bool
  loadStoreIncrementsI : Bool
  deriving DecidableEq, Repr

/-- R10 admits a `STACK_DEPTH` of at least 1. -/
def Config.valid (c : Config) : Bool :=
  match c.stackDepth with
  | .bounded depth => decide (1 ≤ depth)
  | .unbounded => true

/-- The free value (R37, R93): the random byte of a STEP whose host names none, numbered by the counter
`State.draws`. It is any of the 256 values under no law, so it has no body (notes/assumptions/4.md). -/
opaque Config.hostDraw : Nat → Byte

end Sys2Proof
end

