-- ==== Sys2Proof/Machine/Build.lean ====
section
/-! DEFINITION. The parameters of the instance that State.reset describes: the spec's default of each
(spec/00_scope.md R10; "The defaults define this hardware", spec/90_conflicts.md C10). -/

namespace Sys2Proof

/-- Every parameter of R10 at the default the spec chose (notes/assumptions/1.md). -/
def Config.built : Config :=
  { profile := .source
    zeroGroupDecode := .exact
    stackDepth := .bounded 16
    shiftSource := .vx
    logicResetsVF := false
    loadStoreIncrementsI := false }

/-- The same instance built with the profile `EXTENDED` (R2). -/
def Config.asExtended (c : Config) : Config :=
  { c with profile := .extended }

end Sys2Proof
end

