-- ==== Sys2Proof/Syntax.lean ====
section
/-! DEFINITION. The instructions, one constructor per row of spec/opcode_table.json (spec/30_encoding.md
R77), in the table's order. Every field is as wide as the encoding has it (R71), so every value of a field
is one that the encoding admits. -/

namespace Sys2Proof

/-- The complete instruction set of both profiles (R77). `cls` and `ret` carry the bits 11:4 of their
word, which are fixed under `EXACT` and don't-care under `LOW_NIBBLE` (R75, R80), so that the raw opcode,
which a fault record holds (R209), is never lost (notes/assumptions/5.md). -/
inductive Instr where
  /-- `CLS`, 00E0 (under `LOW_NIBBLE` 0mm0). -/
  | cls (mid : Byte)
  /-- `RET`, 00EE (under `LOW_NIBBLE` 0mmE). -/
  | ret (mid : Byte)
  /-- `JP addr`, 1nnn. -/
  | jp (nnn : Addr12)
  /-- `CALL addr`, 2nnn (`EXTENDED`). -/
  | call (nnn : Addr12)
  /-- `SE Vx, byte`, 3xkk. -/
  | seByte (x : Nibble) (kk : Byte)
  /-- `LD Vx, byte`, 6xkk. -/
  | ldByte (x : Nibble) (kk : Byte)
  /-- `ADD Vx, byte`, 7xkk. -/
  | addByte (x : Nibble) (kk : Byte)
  /-- `OR Vx, Vy`, 8xy1 (`EXTENDED`). -/
  | orReg (x y : Nibble)
  /-- `AND Vx, Vy`, 8xy2 (`EXTENDED`). -/
  | andReg (x y : Nibble)
  /-- `XOR Vx, Vy`, 8xy3 (`EXTENDED`). -/
  | xorReg (x y : Nibble)
  /-- `ADD Vx, Vy`, 8xy4 (`EXTENDED`). -/
  | addReg (x y : Nibble)
  /-- `SHR Vx, Vy`, 8xy6 (`EXTENDED`). -/
  | shr (x y : Nibble)
  /-- `SHL Vx, Vy`, 8xyE (`EXTENDED`). -/
  | shl (x y : Nibble)
  /-- `LD I, addr`, Annn. -/
  | ldI (nnn : Addr12)
  /-- `RND Vx, byte`, Cxkk. -/
  | rnd (x : Nibble) (kk : Byte)
  /-- `DRW Vx, Vy, n`, Dxyn. -/
  | drw (x y n : Nibble)
  /-- `LD [I], Vx`, Fx55 (`EXTENDED`). -/
  | storeRegs (x : Nibble)
  /-- `LD Vx, [I]`, Fx65 (`EXTENDED`). -/
  | loadRegs (x : Nibble)
  deriving DecidableEq, Repr

/-- The row's name in spec/opcode_table.json. -/
def Instr.mnemonic : Instr → String
  | .cls _ => "CLS"
  | .ret _ => "RET"
  | .jp _ => "JP_addr"
  | .call _ => "CALL_addr"
  | .seByte _ _ => "SE_Vx__byte"
  | .ldByte _ _ => "LD_Vx__byte"
  | .addByte _ _ => "ADD_Vx__byte"
  | .orReg _ _ => "OR_Vx__Vy"
  | .andReg _ _ => "AND_Vx__Vy"
  | .xorReg _ _ => "XOR_Vx__Vy"
  | .addReg _ _ => "ADD_Vx__Vy"
  | .shr _ _ => "SHR_Vx__Vy"
  | .shl _ _ => "SHL_Vx__Vy"
  | .ldI _ => "LD_I__addr"
  | .rnd _ _ => "RND_Vx__byte"
  | .drw _ _ _ => "DRW_Vx__Vy__n"
  | .storeRegs _ => "LD__I___Vx"
  | .loadRegs _ => "LD_Vx___I"

/-- The profile column of R77: true for the nine instructions that only `EXTENDED` has (R2). -/
def Instr.extendedOnly : Instr → Bool
  | .cls _ => false
  | .ret _ => false
  | .jp _ => false
  | .call _ => true
  | .seByte _ _ => false
  | .ldByte _ _ => false
  | .addByte _ _ => false
  | .orReg _ _ => true
  | .andReg _ _ => true
  | .xorReg _ _ => true
  | .addReg _ _ => true
  | .shr _ _ => true
  | .shl _ _ => true
  | .ldI _ => false
  | .rnd _ _ => false
  | .drw _ _ _ => false
  | .storeRegs _ => true
  | .loadRegs _ => true

end Sys2Proof
end

