-- ==== Sys2Proof/WellFormed.lean ====
section
/-! DEFINITION. Which terms of Instr are instructions of an instance (spec/30_encoding.md R74, R75, R77).
The widths of the fields are in the types; two checks remain, the profile and the middle byte of the
0x0 group. -/

namespace Sys2Proof

/-- The profile check (R2, R77): an `EXTENDED` row is an instruction only of an `EXTENDED` instance. -/
def Instr.inProfile (c : Config) (i : Instr) : Bool :=
  !i.extendedOnly || c.profile == .extended

/-- The middle byte of the 0x0 group (R75): 0x0E under `EXACT`, any byte under `LOW_NIBBLE`. -/
def Instr.middleOk (c : Config) : Instr → Bool
  | .cls mid => c.zeroGroupDecode == .lowNibble || mid == 0x0E
  | .ret mid => c.zeroGroupDecode == .lowNibble || mid == 0x0E
  | .jp _ => true
  | .call _ => true
  | .seByte _ _ => true
  | .ldByte _ _ => true
  | .addByte _ _ => true
  | .orReg _ _ => true
  | .andReg _ _ => true
  | .xorReg _ _ => true
  | .addReg _ _ => true
  | .shr _ _ => true
  | .shl _ _ => true
  | .ldI _ => true
  | .rnd _ _ => true
  | .drw _ _ _ => true
  | .storeRegs _ => true
  | .loadRegs _ => true

/-- `i` is an instruction of the instance `c`. -/
def Instr.wellFormed (c : Config) (i : Instr) : Bool :=
  i.inProfile c && i.middleOk c

end Sys2Proof
end

