-- ==== Sys2Proof/Decode.lean ====
section
/-! DEFINITION. The decoder, total on words and on byte sequences (spec/30_encoding.md R71, R74), the
encoder written from the same formats (R72, R84), and the opcode map (R77) as data. -/

namespace Sys2Proof

/-! ## Fields (R71) -/

/-- `op` = opcode[15:12]. -/
def opField (w : Word) : Nibble := w.extractLsb' 12 4
/-- `x` = opcode[11:8]. -/
def xField (w : Word) : Nibble := w.extractLsb' 8 4
/-- `y` = opcode[7:4]. -/
def yField (w : Word) : Nibble := w.extractLsb' 4 4
/-- `n` = opcode[3:0]. -/
def nField (w : Word) : Nibble := w.extractLsb' 0 4
/-- `kk` = opcode[7:0]. -/
def kkField (w : Word) : Byte := w.extractLsb' 0 8
/-- `nnn` = opcode[11:0]. -/
def nnnField (w : Word) : Addr12 := w.extractLsb' 0 12
/-- opcode[11:4], the don't-care bits of CLS and RET under `LOW_NIBBLE` (R80). -/
def midField (w : Word) : Byte := w.extractLsb' 4 8

/-! ## The decoder (R74) -/

/-- What a word decodes to: an instruction, or the rejection that carries the raw opcode (R74, R78). -/
inductive Decoded where
  | instr (i : Instr)
  | unsupportedOpcode (opcode : Word)
  deriving DecidableEq, Repr

/-- The 0x0 group (R75). -/
def decodeZeroGroup (c : Config) (w : Word) : Decoded :=
  match c.zeroGroupDecode with
  | .exact =>
    if w = 0x00E0 then .instr (.cls (midField w))
    else if w = 0x00EE then .instr (.ret (midField w))
    else .unsupportedOpcode w
  | .lowNibble =>
    if nField w = 0x0 then .instr (.cls (midField w))
    else if nField w = 0xE then .instr (.ret (midField w))
    else .unsupportedOpcode w

/-- The 0x8 group of `EXTENDED`, dispatched on `n` (R74, R169). -/
def decodeAluGroup (w : Word) : Decoded :=
  if nField w = 0x1 then .instr (.orReg (xField w) (yField w))
  else if nField w = 0x2 then .instr (.andReg (xField w) (yField w))
  else if nField w = 0x3 then .instr (.xorReg (xField w) (yField w))
  else if nField w = 0x4 then .instr (.addReg (xField w) (yField w))
  else if nField w = 0x6 then .instr (.shr (xField w) (yField w))
  else if nField w = 0xE then .instr (.shl (xField w) (yField w))
  else .unsupportedOpcode w

/-- The 0xF group of `EXTENDED`, dispatched on `kk` (R74). -/
def decodeBlockGroup (w : Word) : Decoded :=
  if kkField w = 0x55 then .instr (.storeRegs (xField w))
  else if kkField w = 0x65 then .instr (.loadRegs (xField w))
  else .unsupportedOpcode w

/-- R74. It reads the word and the parameters only (R76). -/
def decode (c : Config) (w : Word) : Decoded :=
  if opField w = 0x0 then decodeZeroGroup c w
  else if opField w = 0x1 then .instr (.jp (nnnField w))
  else if opField w = 0x2 ∧ c.profile = .extended then .instr (.call (nnnField w))
  else if opField w = 0x3 then .instr (.seByte (xField w) (kkField w))
  else if opField w = 0x6 then .instr (.ldByte (xField w) (kkField w))
  else if opField w = 0x7 then .instr (.addByte (xField w) (kkField w))
  else if opField w = 0x8 ∧ c.profile = .extended then decodeAluGroup w
  else if opField w = 0xA then .instr (.ldI (nnnField w))
  else if opField w = 0xC then .instr (.rnd (xField w) (kkField w))
  else if opField w = 0xD then .instr (.drw (xField w) (yField w) (nField w))
  else if opField w = 0xF ∧ c.profile = .extended then decodeBlockGroup w
  else .unsupportedOpcode w

/-- A byte pair as an opcode, the byte at the lower address first (R52, R70). -/
def wordOfBytes (hi lo : Byte) : Word := hi ++ lo

/-- What a byte sequence decodes to. -/
inductive DecodedBytes where
  | instr (i : Instr) (rest : List Byte)
  | unsupportedOpcode (opcode : Word)
  /-- Fewer than the 2 bytes that a decoder always consumes (R70). -/
  | truncated
  deriving DecidableEq, Repr

/-- The decoder on bytes in the order memory holds them: it always consumes exactly 2 (R70). -/
def decodeBytes (c : Config) : List Byte → DecodedBytes
  | hi :: lo :: rest =>
    match decode c (wordOfBytes hi lo) with
    | .instr i => .instr i rest
    | .unsupportedOpcode w => .unsupportedOpcode w
  | [_] => .truncated
  | [] => .truncated

/-! ## The encoder (R72, R84) -/

/-- The word of an instruction, each operand in its field. -/
def encode : Instr → Word
  | .cls mid => 0x0#4 ++ mid ++ 0x0#4
  | .ret mid => 0x0#4 ++ mid ++ 0xE#4
  | .jp nnn => 0x1#4 ++ nnn
  | .call nnn => 0x2#4 ++ nnn
  | .seByte x kk => 0x3#4 ++ x ++ kk
  | .ldByte x kk => 0x6#4 ++ x ++ kk
  | .addByte x kk => 0x7#4 ++ x ++ kk
  | .orReg x y => 0x8#4 ++ x ++ y ++ 0x1#4
  | .andReg x y => 0x8#4 ++ x ++ y ++ 0x2#4
  | .xorReg x y => 0x8#4 ++ x ++ y ++ 0x3#4
  | .addReg x y => 0x8#4 ++ x ++ y ++ 0x4#4
  | .shr x y => 0x8#4 ++ x ++ y ++ 0x6#4
  | .shl x y => 0x8#4 ++ x ++ y ++ 0xE#4
  | .ldI nnn => 0xA#4 ++ nnn
  | .rnd x kk => 0xC#4 ++ x ++ kk
  | .drw x y n => 0xD#4 ++ x ++ y ++ n
  | .storeRegs x => 0xF#4 ++ x ++ 0x55#8
  | .loadRegs x => 0xF#4 ++ x ++ 0x65#8

/-- The byte of a word that stands at the lower address (R52). -/
def highByte (w : Word) : Byte := w.extractLsb' 8 8
/-- The byte of a word that stands at the higher address (R52). -/
def lowByte (w : Word) : Byte := w.extractLsb' 0 8

/-- The two bytes of an instruction in the order memory holds them (R70). -/
def encodeBytes (i : Instr) : List Byte := [highByte (encode i), lowByte (encode i)]

/-! ## The opcode map (R77) -/

/-- One row of R77: a word `w` is the instruction when `(w & mask) = value`. -/
structure OpcodeRow where
  mnemonic     : String
  mask         : Word
  value        : Word
  extendedOnly : Bool
  deriving DecidableEq, Repr

/-- The word is the row's instruction (R77). -/
def OpcodeRow.matchesWord (r : OpcodeRow) (w : Word) : Bool := (w &&& r.mask) == r.value

/-- The CLS and RET rows, which `ZERO_GROUP_DECODE` changes (R77, last paragraph). -/
def zeroGroupRows : ZeroGroupDecode → List OpcodeRow
  | .exact => [⟨"CLS", 0xFFFF, 0x00E0, false⟩, ⟨"RET", 0xFFFF, 0x00EE, false⟩]
  | .lowNibble => [⟨"CLS", 0xF00F, 0x0000, false⟩, ⟨"RET", 0xF00F, 0x000E, false⟩]

/-- The rows 1nnn to 7xkk of R77. -/
def lowRows : List OpcodeRow :=
  [⟨"JP_addr", 0xF000, 0x1000, false⟩, ⟨"CALL_addr", 0xF000, 0x2000, true⟩,
   ⟨"SE_Vx__byte", 0xF000, 0x3000, false⟩, ⟨"LD_Vx__byte", 0xF000, 0x6000, false⟩,
   ⟨"ADD_Vx__byte", 0xF000, 0x7000, false⟩]

/-- The rows 8xyN of R77. -/
def aluRows : List OpcodeRow :=
  [⟨"OR_Vx__Vy", 0xF00F, 0x8001, true⟩, ⟨"AND_Vx__Vy", 0xF00F, 0x8002, true⟩,
   ⟨"XOR_Vx__Vy", 0xF00F, 0x8003, true⟩, ⟨"ADD_Vx__Vy", 0xF00F, 0x8004, true⟩,
   ⟨"SHR_Vx__Vy", 0xF00F, 0x8006, true⟩, ⟨"SHL_Vx__Vy", 0xF00F, 0x800E, true⟩]

/-- The rows Annn to Fx65 of R77. -/
def highRows : List OpcodeRow :=
  [⟨"LD_I__addr", 0xF000, 0xA000, false⟩, ⟨"RND_Vx__byte", 0xF000, 0xC000, false⟩,
   ⟨"DRW_Vx__Vy__n", 0xF000, 0xD000, false⟩, ⟨"LD__I___Vx", 0xF0FF, 0xF055, true⟩,
   ⟨"LD_Vx___I", 0xF0FF, 0xF065, true⟩]

/-- The rows of R77 that an instance has: all of them under `EXTENDED`, the `both` rows under `SOURCE`. -/
def opcodeMap (c : Config) : List OpcodeRow :=
  (zeroGroupRows c.zeroGroupDecode ++ lowRows ++ aluRows ++ highRows).filter fun r =>
    !r.extendedOnly || c.profile == .extended

/-! ## The host's questions about the opcode table -/

/-- The word decodes to an instruction of the instance. -/
def supports (c : Config) (w : Word) : Bool :=
  match decode c w with
  | .instr _ => true
  | .unsupportedOpcode _ => false

/-- The instance a program that holds the word `w` is for: `c` itself, unless `w` is an instruction of
`c` built as `EXTENDED` only (notes/assumptions/2.md). -/
def Config.forWord (c : Config) (w : Word) : Config :=
  if supports c w then c else if supports c.asExtended w then c.asExtended else c

/-- The first `nbits` bits of a numbered instruction, at most the 16 that every instruction has (R70). -/
def tableWord (nbits w : Nat) : Word := BitVec.ofNat 16 (w % 2 ^ nbits)

/-- The instruction the decoder reads from the bytes of a numbered word, laid out high byte first. -/
def decodeTableWord (nbits w : Nat) : Option Instr :=
  match decodeBytes (Config.built.forWord (tableWord nbits w))
      [highByte (tableWord nbits w), lowByte (tableWord nbits w)] with
  | .instr i _ => some i
  | .unsupportedOpcode _ => none
  | .truncated => none

end Sys2Proof
end

