-- ==== Sys2Proof/Machine/State.lean ====
section
/-! DEFINITION. The architectural state of one core (spec/10_state.md R20), the parameters of the instance
it belongs to, the random input of the STEP in progress, and the state after RESET (R35). -/

namespace Sys2Proof.Machine

/-- Memory (spec/20_memory.md R50): the bytes of 0x000-0xFFF that are not 0x00, by rising address. An
unlisted address reads as 0x00, the reset value of every byte. -/
abbrev Memory := List Host.Cell

/-- The 64×32 framebuffer (R33): element `y` is row `y`, and bit `x` of a row (bit 0 the least
significant) is cell (x, y) (notes/assumptions/9.md). -/
abbrev Framebuffer := Vector (BitVec 64) 32

/-- Reasons for a step to leave the machine. There are none: every fault of this core is latched in
`status` and leaves a next state (spec/60_exceptions.md R202, R203; notes/assumptions/3.md), so this type
has no constructor and no meaning can answer with it. -/
inductive Fault where
  deriving DecidableEq, Repr

/-- Reasons to have no meaning for an instruction. -/
inductive Refusal where
  /-- Raised by an arm of `exec` whose instruction has no meaning yet. Safe: the machine stops where the
  hardware goes on. No arm of this model raises it. -/
  | notModelled (mnemonic : String)
  deriving DecidableEq, Repr

/-- The state. `cfg` is the instance's build (R10) and never changes. `mem` to `status` are the tuple of
R20. `rIn` and `draws` are the model's own (notes/assumptions/4.md). -/
structure State where
  /-- The build-time parameters (R10). -/
  cfg    : Config
  /-- 4096 bytes (R50). -/
  mem    : Memory
  /-- V0 to VF (R22). -/
  V      : Vector Byte 16
  /-- The address register (R25). -/
  I      : Word
  /-- The program counter (R27). -/
  pc     : Word
  /-- The call stack (R31), its top first. -/
  S      : List Word
  /-- The framebuffer (R33). -/
  FB     : Framebuffer
  /-- The fault latch (R36). -/
  status : BitVec 64
  /-- The random input `r` of the STEP in progress (R93), or `none` where the host names none. -/
  rIn    : Option Byte
  /-- The number of STEPs begun, which numbers the free random bytes. -/
  draws  : Nat
  deriving DecidableEq, Repr

/-- R35 and R230: every state element of an instance `c` at its reset value. -/
def State.resetWith (c : Config) : State :=
  { cfg := c
    mem := []
    V := Vector.replicate 16 0x00
    I := 0x0000
    pc := 0x0200
    S := []
    FB := Vector.replicate 32 0
    status := 0
    rIn := none
    draws := 0 }

/-- The machine right after RESET, on the instance the spec's defaults describe. -/
def State.reset : State := State.resetWith Config.built

end Sys2Proof.Machine
end

