-- ==== Sys2Proof/Machine/Ops.lean ====
section
/-! DEFINITION. The named operations over memory, registers, framebuffer and call stack, and the entry
into a fault (spec/00_scope.md R13, R14, R15; spec/20_memory.md; spec/60_exceptions.md R202). There is no
return from a fault (R205): RESET is the one way out, in Machine/Transactions.lean. -/

namespace Sys2Proof.Machine

/-! ## Memory -/

/-- The canonical form: addresses strictly rising and inside 0x000-0xFFF (R50), and no byte listed that
an unlisted address reads as. -/
abbrev Memory.wf (m : Memory) : Prop :=
  m.Pairwise (fun a b => a.1 < b.1) ∧ ∀ c ∈ m, c.1 ≤ 0xFFF ∧ c.2 ≠ 0

/-- The byte at `a`; an unlisted address reads as 0x00 (R50). -/
def Memory.read : Memory → Nat → Byte
  | [], _ => 0x00
  | (b, v) :: rest, a => if b = a then v else Memory.read rest a

/-- The list with the byte at `a` set to `v`, kept canonical. -/
def Memory.put : Memory → Nat → Byte → Memory
  | [], a, v => if v = 0 then [] else [(a, v)]
  | (b, w) :: rest, a, v =>
    if b < a then (b, w) :: Memory.put rest a v
    else if b = a then (if v = 0 then rest else (a, v) :: rest)
    else if v = 0 then (b, w) :: rest
    else (a, v) :: (b, w) :: rest

/-- `MemWrite(a, 1, v)` (R14). An address outside 0x000-0xFFF reaches nothing (R55); no instruction and no
transaction writes one, since each checks its range first. -/
def Memory.write (m : Memory) (a : Nat) (v : Byte) : Memory :=
  if a ≤ 0xFFF then m.put a v else m

/-- Successive bytes from `a` upward (R61, R190). -/
def Memory.writeBytes : Memory → Nat → List Byte → Memory
  | m, _, [] => m
  | m, a, v :: rest => Memory.writeBytes (m.write a v) (a + 1) rest

/-- `MemRead(a, 1)` (R14). -/
def State.readByte (s : State) (a : Nat) : Byte := s.mem.read a

/-- The opcode at `a`: `MemRead(a, 1) ‖ MemRead(a + 1, 1)` (R14, R52). -/
def State.readWord (s : State) (a : Nat) : Word := wordOfBytes (s.readByte a) (s.readByte (a + 1))

/-- Successive bytes from `a` upward. -/
def State.writeBytes (s : State) (a : Nat) (bytes : List Byte) : State :=
  { s with mem := s.mem.writeBytes a bytes }

/-- `count` successive bytes from `a` upward, in rising order. -/
def State.readBytes (s : State) (a count : Nat) : List Byte :=
  (List.range count).map fun k => s.readByte (a + k)

/-- A range of `count` bytes from `a` reaches past 0xFFF; sums do not wrap (R55). No byte, no breach. -/
def outOfBounds (a : Word) (count : Nat) : Bool :=
  decide (0 < count) && decide (0xFFF < a.toNat + count - 1)

/-- The first out-of-range address of a range that begins at `a` (R55). -/
def firstBadAddress (a : Word) : Word := if a.toNat ≤ 0x1000 then 0x1000 else a

/-! ## Registers -/

/-- `V[x]` (R13). No register is hardwired (R22). -/
def State.readV (s : State) (x : Nibble) : Byte := s.V[x.toNat]

/-- `V[x] <- v` (R13). -/
def State.writeV (s : State) (x : Nibble) (v : Byte) : State :=
  { s with V := s.V.set x.toNat v }

/-- `V[0xF] <- v`, the flag write (R24). -/
def State.writeVF (s : State) (v : Byte) : State := s.writeV 0xF v

/-- `I <- v` (R25). -/
def State.writeI (s : State) (v : Word) : State := { s with I := v }

/-- `V[first]`, `V[first+1]`, … set from a list, in rising order. -/
def State.writeRegs : State → Nat → List Byte → State
  | s, _, [] => s
  | s, first, v :: rest => (s.writeV (BitVec.ofNat 4 first) v).writeRegs (first + 1) rest

/-- `V[0]` to `V[x]`. -/
def State.readRegs (s : State) (x : Nibble) : List Byte :=
  (List.range (x.toNat + 1)).map fun k => s.readV (BitVec.ofNat 4 k)

/-! ## Program counter (R28, R94) -/

/-- `pc <- target`. -/
def State.jump (s : State) (target : Word) : State := { s with pc := target }

/-- `pc <- (p + 2) mod 2^16`. -/
def State.advance (s : State) : State := s.jump (s.pc + 2)

/-- `pc <- (p + 4) mod 2^16`, the skip of SE. -/
def State.skip (s : State) : State := s.jump (s.pc + 4)

/-! ## Call stack (R31) -/

/-- The stack already holds `STACK_DEPTH` entries (R136). -/
def StackDepth.full (d : StackDepth) (len : Nat) : Bool :=
  match d with
  | .bounded depth => len == depth
  | .unbounded => false

/-- `push(S, a)`. -/
def State.push (s : State) (a : Word) : State := { s with S := a :: s.S }

/-- `S` without its top. -/
def State.dropTop (s : State) : State := { s with S := s.S.tail }

/-! ## Framebuffer (R33, R113) -/

/-- `FB[x, y]`; every coordinate is taken modulo the framebuffer's size (R113). -/
def Framebuffer.cell (fb : Framebuffer) (x y : Nat) : Bool :=
  (fb[y % 32]'(Nat.mod_lt _ (by decide))).getLsbD (x % 64)

/-- `FB[x, y] <- FB[x, y] ^ 1`, with the same wraparound (R113). -/
def Framebuffer.flip (fb : Framebuffer) (x y : Nat) : Framebuffer :=
  fb.set (y % 32) ((fb[y % 32]'(Nat.mod_lt _ (by decide))) ^^^ BitVec.twoPow 64 (x % 64))
    (Nat.mod_lt _ (by decide))

/-- Every cell 0. -/
def Framebuffer.clear : Framebuffer := Vector.replicate 32 0

/-- The framebuffer replaced. -/
def State.writeFB (s : State) (fb : Framebuffer) : State := { s with FB := fb }

/-- One 1-bit of a sprite on cell (x, y), with the collision so far (R112, R115). -/
def plot (x y : Nat) (p : Framebuffer × Bool) : Framebuffer × Bool :=
  (Framebuffer.flip p.1 x y, p.2 || Framebuffer.cell p.1 x y)

/-- Column `col` of a sprite row: bit `7 - col`, so bit 7 is the leftmost pixel (R114). -/
def drawColumn (b : Byte) (x y : Nat) (p : Framebuffer × Bool) (col : Nat) : Framebuffer × Bool :=
  if b.getLsbD (7 - col) then plot (x + col) y p else p

/-- One sprite row at (x, y): the eight columns from left to right (R112). -/
def drawRow (b : Byte) (x y : Nat) (p : Framebuffer × Bool) : Framebuffer × Bool :=
  (List.range 8).foldl (drawColumn b x y) p

/-- The rows of a sprite, from the top one at `y` downward (R112, R114). -/
def drawRows : List Byte → Nat → Nat → Framebuffer × Bool → Framebuffer × Bool
  | [], _, _, p => p
  | b :: rest, x, y, p => drawRows rest x (y + 1) (drawRow b x y p)

/-- The framebuffer after the draw, and whether a cell was erased (R112). -/
def drawSprite (sprite : List Byte) (x y : Byte) (fb : Framebuffer) : Framebuffer × Bool :=
  drawRows sprite x.toNat y.toNat (fb, false)

/-! ## The fault latch (R36, R202, R207) -/

/-- The fault kinds (R207). -/
inductive FaultKind where
  | unsupportedOpcode
  | stackUnderflow
  | outOfBoundsLoad
  | outOfBoundsAccess
  | stackOverflow
  deriving DecidableEq, Repr

/-- `code(F)` (R207). -/
def FaultKind.code : FaultKind → BitVec 3
  | .unsupportedOpcode => 1
  | .stackUnderflow => 2
  | .outOfBoundsLoad => 3
  | .outOfBoundsAccess => 4
  | .stackOverflow => 5

/-- The layout of `status` (R36): FADDR ‖ FPC ‖ FOPCODE ‖ reserved ‖ CODE ‖ FAULTED. -/
def statusWord (code : BitVec 3) (opcode pc addr : Word) : BitVec 64 :=
  addr ++ pc ++ opcode ++ 0#12 ++ code ++ 1#1

/-- `status.FAULTED`. -/
def State.faulted (s : State) : Bool := s.status.getLsbD 0
/-- `status.CODE`. -/
def State.faultCode (s : State) : BitVec 3 := s.status.extractLsb' 1 3
/-- Bits 15:4 of `status`. -/
def State.statusReserved (s : State) : BitVec 12 := s.status.extractLsb' 4 12
/-- `status.FOPCODE`. -/
def State.faultOpcode (s : State) : Word := s.status.extractLsb' 16 16
/-- `status.FPC`. -/
def State.faultPc (s : State) : Word := s.status.extractLsb' 32 16
/-- `status.FADDR`. -/
def State.faultAddr (s : State) : Word := s.status.extractLsb' 48 16

/-- `raise F(opcode, pc, addr)` (R15, R202, R203): the record is latched with the pc at the start of the
transaction, and nothing else changes. -/
def State.raise (s : State) (kind : FaultKind) (opcode addr : Word) : State :=
  { s with status := statusWord kind.code opcode s.pc addr }

end Sys2Proof.Machine
end

