-- ==== Sys2Proof/Machine/Operands.lean ====
section
/-! DEFINITION. The operand forms (spec/30_encoding.md R73): register, immediate byte, 12-bit address,
the shift source of SHR and SHL, the sprite and the register block at I, and the random byte. -/

namespace Sys2Proof.Machine

/-- `zext_16(nnn)` (R73). -/
def addressOperand (nnn : Addr12) : Word := nnn.setWidth 16

/-- The operand of SHR and SHL: `V[x]` or `V[y]` by `SHIFT_SOURCE` (R178, R180). -/
def State.shiftOperand (s : State) (x y : Nibble) : Byte :=
  match s.cfg.shiftSource with
  | .vx => s.readV x
  | .vy => s.readV y

/-- The `n` sprite bytes from `I` (R112, R114). -/
def State.spriteBytes (s : State) (n : Nibble) : List Byte := s.readBytes s.I.toNat n.toNat

/-- The number of bytes that a block load or store up to V[x] moves (R54). -/
def blockLength (x : Nibble) : Nat := x.toNat + 1

/-- `I` after a block load or store (R194). -/
def State.blockEndI (s : State) (x : Nibble) : Word :=
  if s.cfg.loadStoreIncrementsI then BitVec.ofNat 16 (s.I.toNat + x.toNat + 1) else s.I

/-- `draw r`, the random input of the current STEP (R15, R93): the byte the host named, or a free one. -/
def State.draw (s : State) : Byte :=
  match s.rIn with
  | some r => r
  | none => Config.hostDraw s.draws

end Sys2Proof.Machine
end

