-- ==== Sys2Proof/Machine/Flags.lean ====
section
/-! DEFINITION. The flag values written into VF (spec/10_state.md R34). -/

namespace Sys2Proof.Machine

/-- A flag as a byte: 1 or 0. -/
def flagByte (b : Bool) : Byte := if b then 1 else 0

/-- The carry out of bit 7 of `a + b` (R176). -/
def carryFlag (a b : Byte) : Byte := flagByte (decide (256 ≤ a.toNat + b.toNat))

/-- The bit SHR shifts out (R178). -/
def shrFlag (src : Byte) : Byte := src &&& 0x01

/-- The bit SHL shifts out (R180). -/
def shlFlag (src : Byte) : Byte := (src >>> 7) &&& 0x01

/-- VF after OR, AND and XOR: 0 when `LOGIC_RESETS_VF`, else as it was (R170, R172, R174). -/
def State.logicFlag (s : State) : State :=
  if s.cfg.logicResetsVF then s.writeVF 0 else s

end Sys2Proof.Machine
end

