-- ==== Sys2Proof/Machine/Alu.lean ====
section
/-! DEFINITION. The ALU register-register instructions of `EXTENDED` (spec/44_alu.md). Each reads its
operands first, writes V[x] and then VF, and advances pc by 2 (R169). -/

namespace Sys2Proof.Machine

/-- OR Vx, Vy (R170). -/
def execOrReg (x y : Nibble) (s : State) : Host.Outcome State Fault Refusal :=
  .next (s.writeV x (s.readV x ||| s.readV y)).logicFlag.advance

/-- AND Vx, Vy (R172). -/
def execAndReg (x y : Nibble) (s : State) : Host.Outcome State Fault Refusal :=
  .next (s.writeV x (s.readV x &&& s.readV y)).logicFlag.advance

/-- XOR Vx, Vy (R174). -/
def execXorReg (x y : Nibble) (s : State) : Host.Outcome State Fault Refusal :=
  .next (s.writeV x (s.readV x ^^^ s.readV y)).logicFlag.advance

/-- ADD Vx, Vy (R176). -/
def execAddReg (x y : Nibble) (s : State) : Host.Outcome State Fault Refusal :=
  .next ((s.writeV x (s.readV x + s.readV y)).writeVF (carryFlag (s.readV x) (s.readV y))).advance

/-- SHR Vx, Vy (R178). -/
def execShr (x y : Nibble) (s : State) : Host.Outcome State Fault Refusal :=
  .next ((s.writeV x (s.shiftOperand x y >>> 1)).writeVF (shrFlag (s.shiftOperand x y))).advance

/-- SHL Vx, Vy (R180). -/
def execShl (x y : Nibble) (s : State) : Host.Outcome State Fault Refusal :=
  .next ((s.writeV x (s.shiftOperand x y <<< 1)).writeVF (shlFlag (s.shiftOperand x y))).advance

end Sys2Proof.Machine
end

