-- ==== Sys2Proof/Machine/Display.lean ====
section
/-! DEFINITION. The display instructions CLS and DRW (spec/41_display.md). -/

namespace Sys2Proof.Machine

/-- CLS (R111). -/
def execCls (s : State) : Host.Outcome State Fault Refusal :=
  .next (s.writeFB Framebuffer.clear).advance

/-- DRW Vx, Vy, n (R112): the coordinates, the sprite and the bounds are read before VF and the cells are
written. -/
def execDrw (x y n : Nibble) (s : State) : Host.Outcome State Fault Refusal :=
  if outOfBounds s.I n.toNat then
    .next (s.raise .outOfBoundsAccess (encode (.drw x y n)) (firstBadAddress s.I))
  else
    let drawn := drawSprite (s.spriteBytes n) (s.readV x) (s.readV y) s.FB
    .next (((s.writeFB drawn.1).writeVF (flagByte drawn.2)).advance)

end Sys2Proof.Machine
end

