-- ==== Sys2Proof/Machine/Flow.lean ====
section
/-! DEFINITION. Control flow and the call stack: RET, JP, SE, CALL (spec/42_flow.md). -/

namespace Sys2Proof.Machine

/-- RET (R130): the popped value is used as it is. -/
def execRet (mid : Byte) (s : State) : Host.Outcome State Fault Refusal :=
  match s.S with
  | [] => .next (s.raise .stackUnderflow (encode (.ret mid)) 0)
  | top :: _ => .next (s.dropTop.jump top)

/-- JP addr (R132). -/
def execJp (nnn : Addr12) (s : State) : Host.Outcome State Fault Refusal :=
  .next (s.jump (addressOperand nnn))

/-- SE Vx, byte (R134). -/
def execSeByte (x : Nibble) (kk : Byte) (s : State) : Host.Outcome State Fault Refusal :=
  if s.readV x = kk then .next s.skip else .next s.advance

/-- CALL addr (R136): the return address is p + 2. -/
def execCall (nnn : Addr12) (s : State) : Host.Outcome State Fault Refusal :=
  if StackDepth.full s.cfg.stackDepth s.S.length then
    .next (s.raise .stackOverflow (encode (.call nnn)) 0)
  else .next ((s.push (s.pc + 2)).jump (addressOperand nnn))

end Sys2Proof.Machine
end

