-- ==== Sys2Proof/Machine/LoadStore.lean ====
section
/-! DEFINITION. The register block store and load of `EXTENDED` (spec/45_loadstore.md). -/

namespace Sys2Proof.Machine

/-- LD [I], Vx (R190, R194). -/
def execStoreRegs (x : Nibble) (s : State) : Host.Outcome State Fault Refusal :=
  if outOfBounds s.I (blockLength x) then
    .next (s.raise .outOfBoundsAccess (encode (.storeRegs x)) (firstBadAddress s.I))
  else .next ((s.writeBytes s.I.toNat (s.readRegs x)).writeI (s.blockEndI x)).advance

/-- LD Vx, [I] (R192, R194): every byte is read before a register is written. -/
def execLoadRegs (x : Nibble) (s : State) : Host.Outcome State Fault Refusal :=
  if outOfBounds s.I (blockLength x) then
    .next (s.raise .outOfBoundsAccess (encode (.loadRegs x)) (firstBadAddress s.I))
  else .next ((s.writeRegs 0 (s.readBytes s.I.toNat (blockLength x))).writeI (s.blockEndI x)).advance

end Sys2Proof.Machine
end

