-- ==== Sys2Proof/Machine/Cycle.lean ====
section
/-! DEFINITION. The step cycle: latch, fetch, decode, execute (spec/40_step.md R91 to R96), and the placing
of one instruction word where the next STEP fetches it. -/

namespace Sys2Proof.Machine

/-- The opcode at pc, most significant byte first (R52). -/
def State.fetchWord (s : State) : Word := s.readWord s.pc.toNat

/-- A STEP of a RUNNING core, in the check order of R96: fetch bounds, decode, then the handler. -/
def runStep (s : State) : Host.Outcome State Fault Refusal :=
  if 0xFFF < s.pc.toNat + 1 then .next (s.raise .outOfBoundsAccess 0 (firstBadAddress s.pc))
  else
    match decode s.cfg s.fetchWord with
    | .instr i => exec i s
    | .unsupportedOpcode opcode => .next (s.raise .unsupportedOpcode opcode 0)

/-- The STEP's random input is presented: the host's byte, or none, for a free one (R93). -/
def State.present (s : State) (r : Option Byte) : State :=
  { s with rIn := r, draws := s.draws + 1 }

/-- STEP with the random input `r` (R91). On a FAULTED core it changes nothing (R92). -/
def stepWith (r : Option Byte) (s : State) : Host.Outcome State Fault Refusal :=
  if s.faulted then .next s else runStep (s.present r)

/-- STEP with a random byte that nothing constrains (R93). -/
def stepFree (s : State) : Host.Outcome State Fault Refusal := stepWith none s

/-- The word stored where the next STEP fetches it, high byte first, on an instance that has the
instruction (notes/assumptions/2.md). -/
def State.placeWord (s : State) (w : Word) : State :=
  { s.writeBytes s.pc.toNat [highByte w, lowByte w] with cfg := s.cfg.forWord w }

end Sys2Proof.Machine
end

