-- ==== Sys2Proof/Machine/Step.lean ====
section
/-! DEFINITION. One step of the machine, and the host's placing of one instruction. -/

namespace Sys2Proof.Machine

/-- One STEP (R91). -/
def step (s : State) : Host.Outcome State Fault Refusal := stepFree s

/-- The numbered instruction `w` stored where `step` fetches next. -/
def State.withFetchWord (s : State) (nbits w : Nat) : State := s.placeWord (tableWord nbits w)

end Sys2Proof.Machine
end

