-- ==== Sys2Proof/Machine/Transactions.lean ====
section
/-! DEFINITION. The host interface: the six atomic transactions (spec/40_step.md R90, R97) and what each
returns. -/

namespace Sys2Proof.Machine

/-- What the host sends (R90). -/
inductive Transaction where
  | reset
  | load (bytes : List Byte)
  | step (r : Byte)
  | fbRead
  | statusRead
  | stateRead
  deriving DecidableEq, Repr

/-- The state tuple of R20, as STATE_READ returns it. -/
structure Snapshot where
  mem    : Memory
  V      : Vector Byte 16
  I      : Word
  pc     : Word
  S      : List Word
  FB     : Framebuffer
  status : BitVec 64
  deriving DecidableEq, Repr

/-- What the host gets back (R90, R97). -/
inductive Response where
  | nothing
  | ok
  | fault (status : BitVec 64)
  | cells (values : List (BitVec 1))
  | statusWord (status : BitVec 64)
  | tuple (snapshot : Snapshot)
  deriving DecidableEq, Repr

/-- The architectural tuple (R20). -/
def State.snapshot (s : State) : Snapshot :=
  { mem := s.mem, V := s.V, I := s.I, pc := s.pc, S := s.S, FB := s.FB, status := s.status }

/-- RESET (R230): every element of the tuple to its reset value. The build stays (C10), and the random
source is not reset (R232). -/
def State.doReset (s : State) : State := { State.resetWith s.cfg with draws := s.draws }

/-- The largest program image (R10, R62). -/
def loadMax : Nat := 0xE00

/-- The address the image is copied to (R10, R61). -/
def loadBase : Nat := 0x200

/-- LOAD (R61 to R63): nothing on a FAULTED core, the fault OutOfBoundsLoad for an image that is too long
(R210), else the bytes copied from 0x200. -/
def State.doLoad (s : State) (bytes : List Byte) : State :=
  if s.faulted then s
  else if loadMax < bytes.length then s.raise .outOfBoundsLoad 0 0x1000
  else s.writeBytes loadBase bytes

/-- FB_READ's flat sequence: element `k` is cell (k mod 64, k div 64) (R110). -/
def State.fbCells (s : State) : List (BitVec 1) :=
  (List.range 2048).map fun k => BitVec.ofBool (s.FB.cell (k % 64) (k / 64))

/-- What STEP and LOAD return: FAULT(status) when the core is FAULTED afterwards, else OK (R91, R92,
R204). -/
def State.report (s : State) : Response :=
  if s.faulted then .fault s.status else .ok

/-- A STEP's outcome with the host's return value. -/
def withReport (o : Host.Outcome State Fault Refusal) : Host.Outcome (State × Response) Fault Refusal :=
  match o with
  | .next t => .next (t, t.report)
  | .fault f => .fault f
  | .refused r => .refused r

/-- One transaction (R90). -/
def transact (tr : Transaction) (s : State) : Host.Outcome (State × Response) Fault Refusal :=
  match tr with
  | .reset => .next (s.doReset, .nothing)
  | .load bytes => .next (s.doLoad bytes, (s.doLoad bytes).report)
  | .step r => withReport (stepWith (some r) s)
  | .fbRead => .next (s, .cells s.fbCells)
  | .statusRead => .next (s, .statusWord s.status)
  | .stateRead => .next (s, .tuple s.snapshot)

end Sys2Proof.Machine
end

