-- ==== Sys2Proof/Safety.lean ====
section
/-! DEFINITION. What counts as a safe state, and the terms in which claims are made: running, faulted and
parked (spec/40_step.md R98), what a transaction leaves alone, the tables of spec/10_state.md R23 and R28,
the closed form of a sprite (spec/41_display.md R113 to R115), and the invariant of the machine. -/

namespace Sys2Proof.Machine

/-! ## Running, faulted, parked -/

/-- RUNNING (R36). -/
abbrev State.running (s : State) : Prop := s.faulted = false

/-- Parked (R98): RUNNING, pc ≤ 0xFFE, and the word at pc is `JP` to its own address. -/
abbrev State.parked (s : State) : Prop :=
  s.running ∧ s.pc.toNat ≤ 0xFFE ∧ opField s.fetchWord = 0x1 ∧ (nnnField s.fetchWord).toNat = s.pc.toNat

/-! ## Frames -/

/-- Every byte of memory reads as before. -/
def State.keepsMemory (s t : State) : Prop := ∀ a, t.readByte a = s.readByte a

/-- Every byte of memory outside `a`, …, `a + count - 1` reads as before. -/
def State.keepsMemoryOutside (s t : State) (a count : Nat) : Prop :=
  ∀ b, ¬ (a ≤ b ∧ b < a + count) → t.readByte b = s.readByte b

/-- Every V register is as before. -/
def State.keepsRegs (s t : State) : Prop := ∀ j, t.readV j = s.readV j

/-- Every V register but those that `changed` names is as before. -/
def State.keepsRegsBut (s t : State) (changed : Nibble → Prop) : Prop :=
  ∀ j, ¬ changed j → t.readV j = s.readV j

/-- Every framebuffer cell is as before. -/
def State.keepsCells (s t : State) : Prop := ∀ x y, t.FB.cell x y = s.FB.cell x y

/-- The build, the fault latch, and the STEP's input are as before. -/
def State.keepsControl (s t : State) : Prop :=
  t.cfg = s.cfg ∧ t.status = s.status ∧ t.rIn = s.rIn ∧ t.draws = s.draws

/-- Memory, framebuffer, call stack, build, fault latch and input are as before: what every instruction
leaves alone that works on registers only. -/
def State.keepsAllButRegs (s t : State) : Prop :=
  s.keepsMemory t ∧ s.keepsCells t ∧ t.S = s.S ∧ s.keepsControl t

/-- Everything of R20 but `status` is as before, as is the build (R203). -/
def State.keepsAllButStatus (s t : State) : Prop :=
  t.mem = s.mem ∧ t.V = s.V ∧ t.I = s.I ∧ t.pc = s.pc ∧ t.S = s.S ∧ t.FB = s.FB ∧ t.cfg = s.cfg

/-- The fault record of R202: FAULTED set, the fields as given, the reserved bits 0 (R36). -/
def State.latched (t : State) (kind : FaultKind) (opcode pc addr : Word) : Prop :=
  t.faulted = true ∧ t.faultCode = kind.code ∧ t.statusReserved = 0 ∧ t.faultOpcode = opcode ∧
    t.faultPc = pc ∧ t.faultAddr = addr

/-- Fault entry (R202, R203): the record is latched and nothing else changes. -/
def State.entersFault (s t : State) (kind : FaultKind) (opcode addr : Word) : Prop :=
  t.latched kind opcode s.pc addr ∧ s.keepsAllButStatus t ∧ t.rIn = s.rIn ∧ t.draws = s.draws

/-! ## The tables of spec/10_state.md -/

/-- The table of R28: pc after an instruction that does not fault, `s` the state at its start. -/
def nextPc (i : Instr) (s : State) : Nat :=
  match i with
  | .cls _ => (s.pc.toNat + 2) % 2 ^ 16
  | .ret _ => (s.S.headD 0).toNat
  | .jp nnn => nnn.toNat
  | .call nnn => nnn.toNat
  | .seByte x kk => if s.readV x = kk then (s.pc.toNat + 4) % 2 ^ 16 else (s.pc.toNat + 2) % 2 ^ 16
  | .ldByte _ _ => (s.pc.toNat + 2) % 2 ^ 16
  | .addByte _ _ => (s.pc.toNat + 2) % 2 ^ 16
  | .orReg _ _ => (s.pc.toNat + 2) % 2 ^ 16
  | .andReg _ _ => (s.pc.toNat + 2) % 2 ^ 16
  | .xorReg _ _ => (s.pc.toNat + 2) % 2 ^ 16
  | .addReg _ _ => (s.pc.toNat + 2) % 2 ^ 16
  | .shr _ _ => (s.pc.toNat + 2) % 2 ^ 16
  | .shl _ _ => (s.pc.toNat + 2) % 2 ^ 16
  | .ldI _ => (s.pc.toNat + 2) % 2 ^ 16
  | .rnd _ _ => (s.pc.toNat + 2) % 2 ^ 16
  | .drw _ _ _ => (s.pc.toNat + 2) % 2 ^ 16
  | .storeRegs _ => (s.pc.toNat + 2) % 2 ^ 16
  | .loadRegs _ => (s.pc.toNat + 2) % 2 ^ 16

/-- The `writes` column of R23: the instruction may write V[j]. -/
def writesV (c : Config) (i : Instr) (j : Nibble) : Prop :=
  match i with
  | .cls _ => False
  | .ret _ => False
  | .jp _ => False
  | .call _ => False
  | .seByte _ _ => False
  | .ldByte x _ => j = x
  | .addByte x _ => j = x
  | .orReg x _ => j = x ∨ (c.logicResetsVF = true ∧ j = 0xF)
  | .andReg x _ => j = x ∨ (c.logicResetsVF = true ∧ j = 0xF)
  | .xorReg x _ => j = x ∨ (c.logicResetsVF = true ∧ j = 0xF)
  | .addReg x _ => j = x ∨ j = 0xF
  | .shr x _ => j = x ∨ j = 0xF
  | .shl x _ => j = x ∨ j = 0xF
  | .ldI _ => False
  | .rnd x _ => j = x
  | .drw _ _ _ => j = 0xF
  | .storeRegs _ => False
  | .loadRegs x => j ≤ x

/-- The `reads` column of R23: the instruction may read V[j]. -/
def readsV (c : Config) (i : Instr) (j : Nibble) : Prop :=
  match i with
  | .cls _ => False
  | .ret _ => False
  | .jp _ => False
  | .call _ => False
  | .seByte x _ => j = x
  | .ldByte _ _ => False
  | .addByte x _ => j = x
  | .orReg x y => j = x ∨ j = y
  | .andReg x y => j = x ∨ j = y
  | .xorReg x y => j = x ∨ j = y
  | .addReg x y => j = x ∨ j = y
  | .shr x y => if c.shiftSource = .vx then j = x else j = y
  | .shl x y => if c.shiftSource = .vx then j = x else j = y
  | .ldI _ => False
  | .rnd _ _ => False
  | .drw x y _ => j = x ∨ j = y
  | .storeRegs x => j ≤ x
  | .loadRegs _ => False

/-! ## Encodings -/

/-- Every instance decodes the word to the instruction (the `both` rows of R77). -/
def decodesInBoth (w : Word) (i : Instr) : Prop := ∀ c : Config, decode c w = .instr i

/-- An `EXTENDED` instance decodes the word to the instruction and a `SOURCE` instance rejects it (the
`EXTENDED` rows of R77; R78). -/
def decodesInExtended (w : Word) (i : Instr) : Prop :=
  ∀ c : Config, decode c w = if c.profile = .extended then .instr i else .unsupportedOpcode w

/-! ## Sprites -/

/-- A 1-bit of the `n`-row sprite at `I` lands on cell (cx, cy) when drawn at (x, y): row `row` is the byte
at `I + row`, column `col` its bit `7 - col`, and the target is taken modulo 64 and 32 (R112 to R114). -/
def State.spriteCovers (s : State) (x y : Byte) (n : Nibble) (cx cy : Nat) : Prop :=
  ∃ row col : Nat, row < n.toNat ∧ col < 8 ∧ (s.readByte (s.I.toNat + row)).getLsbD (7 - col) = true ∧
    (x.toNat + col) % 64 = cx ∧ (y.toNat + row) % 32 = cy

/-! ## The invariant -/

/-- A legal value of `status` (R36, R207): no fault and every field 0, or a fault of one of the five codes
with the reserved bits 0 and the FOPCODE and FADDR its row of R207 allows. -/
def State.statusLegal (s : State) : Prop :=
  s.status = 0 ∨
    (s.faulted = true ∧ s.statusReserved = 0 ∧ 1 ≤ s.faultCode.toNat ∧ s.faultCode.toNat ≤ 5 ∧
      (s.faultCode = 3 → s.faultOpcode = 0 ∧ s.faultAddr = 0x1000) ∧
      (s.faultCode = 4 → 0x1000 ≤ s.faultAddr.toNat) ∧
      (s.faultCode ≠ 3 → s.faultCode ≠ 4 → s.faultAddr = 0))

/-- The stack holds at most `STACK_DEPTH` entries (R31). -/
def StackDepth.admits (d : StackDepth) (len : Nat) : Prop :=
  match d with
  | .bounded depth => len ≤ depth
  | .unbounded => True

/-- What holds of every state that transactions reach from RESET. -/
structure State.Inv (s : State) : Prop where
  /-- The build is one that R10 admits. -/
  build : s.cfg.valid = true
  /-- Memory is in canonical form inside 0x000-0xFFF (R50). -/
  memory : s.mem.wf
  /-- R30: pc ≤ 0x1002. -/
  pcRange : s.pc.toNat ≤ 0x1002
  /-- R25, R194: a block access ends at 0xFFF at most. -/
  indexRange : s.I.toNat ≤ 0x1000
  /-- R26: I[15:12] is 0 unless the build is `EXTENDED` with `LOADSTORE_INCREMENTS_I`. -/
  indexPlain : ¬ (s.cfg.profile = .extended ∧ s.cfg.loadStoreIncrementsI = true) → s.I.toNat ≤ 0xFFF
  /-- R31: at most `STACK_DEPTH` entries. -/
  stackDepth : StackDepth.admits s.cfg.stackDepth s.S.length
  /-- R30: CALL pushes at most 0x1000. -/
  stackEntries : ∀ a ∈ s.S, a.toNat ≤ 0x1000
  /-- R32: in `SOURCE` the stack is empty. -/
  stackSource : s.cfg.profile = .source → s.S = []
  /-- R36. -/
  status : s.statusLegal

end Sys2Proof.Machine
end

