-- ==== Sys2Proof/Certificates/Slice0/Obligations.lean ====
section
/-! DEFINITION. The statements for the provers. Each docstring names the rules of spec/ that it states. -/

open Sys2Proof Sys2Proof.Machine

/-! ## Encoding -/

/-- Words written out from the formats of R72, one or more for each family, decode to the instruction they
stand for. -/
def Obligations.SampleWordsDecodeAsTheFormatsSay : Prop :=
  ∀ c : Config,
    decode c 0b0000000011100000 = .instr (.cls 0x0E) ∧
    decode c 0b0001001001010000 = .instr (.jp 0x250) ∧
    decode c 0b0011001100000111 = .instr (.seByte 3 0x07) ∧
    decode c 0b0110000000000101 = .instr (.ldByte 0 0x05) ∧
    decode c 0b1010000100100011 = .instr (.ldI 0x123) ∧
    decode c 0b1101000000010010 = .instr (.drw 0 1 2) ∧
    decode c.asExtended 0b1000101001110100 = .instr (.addReg 0xA 7) ∧
    decode c.asExtended 0b1111000101010101 = .instr (.storeRegs 1)

/-- R84, R74: the word of an instruction of the instance decodes to that instruction, whatever its operands. -/
def Obligations.DecodeOfEncodeIsTheInstruction : Prop :=
  ∀ (c : Config) (i : Instr), i.wellFormed c = true →
    decode c (encode i) = .instr i ∧
      ∀ rest : List Byte, decodeBytes c (encodeBytes i ++ rest) = .instr i rest

/-- R74 and the model's form of CLS and RET: whatever a word decodes to is an instruction of the instance
whose word it is, so no bit of a word is dropped; and a rejection carries the word. Under `LOW_NIBBLE` the
bits 11:4 of CLS and RET are don't-care bits and no operands (R80, R111, R130), so R74 and R84 alone do not
give the first part for these two: it holds because the model's `cls` and `ret` carry the bits, a DESIGN
CHOICE (notes/assumptions/5.md). -/
def Obligations.EncodeOfDecodeIsTheWord : Prop :=
  ∀ (c : Config) (w : Word),
    (∀ i, decode c w = .instr i → i.wellFormed c = true ∧ encode i = w) ∧
    (∀ v, decode c w = .unsupportedOpcode v → v = w ∧ ∀ i, i.wellFormed c = true → encode i ≠ w)

/-- R77: the rows of the opcode map are exclusive, and the decoder agrees with them. -/
def Obligations.OpcodeMapIsExclusiveAndTheDecoderAgrees : Prop :=
  ∀ (c : Config) (w : Word),
    (∀ r ∈ opcodeMap c, ∀ q ∈ opcodeMap c,
      r.matchesWord w = true → q.matchesWord w = true → r = q) ∧
    (∀ r ∈ opcodeMap c, r.matchesWord w = true →
      ∃ i, decode c w = .instr i ∧ i.mnemonic = r.mnemonic) ∧
    (∀ i, decode c w = .instr i →
      ∃ r ∈ opcodeMap c, r.matchesWord w = true ∧ r.mnemonic = i.mnemonic)

/-- R78: the illegal words, listed for both profiles under `EXACT`, the two words it names, and the fault
that fetching an illegal word raises. -/
def Obligations.IllegalWordsAreRejected : Prop :=
  ∀ (c : Config) (w : Word),
    (c.profile = .source → c.zeroGroupDecode = .exact →
      (decode c w = .unsupportedOpcode w ↔
        (opField w = 0x0 ∧ w ≠ 0x00E0 ∧ w ≠ 0x00EE) ∨
        opField w ∈ [0x2#4, 0x4#4, 0x5#4, 0x8#4, 0x9#4, 0xB#4, 0xE#4, 0xF#4])) ∧
    (c.profile = .extended → c.zeroGroupDecode = .exact →
      (decode c w = .unsupportedOpcode w ↔
        (opField w = 0x0 ∧ w ≠ 0x00E0 ∧ w ≠ 0x00EE) ∨
        opField w ∈ [0x4#4, 0x5#4, 0x9#4, 0xB#4, 0xE#4] ∨
        (opField w = 0x8 ∧ nField w ∉ [0x1#4, 0x2#4, 0x3#4, 0x4#4, 0x6#4, 0xE#4]) ∨
        (opField w = 0xF ∧ kkField w ∉ [0x55#8, 0x65#8]))) ∧
    (c.zeroGroupDecode = .exact → decode c 0x0000 = .unsupportedOpcode 0x0000) ∧
    (c.zeroGroupDecode = .lowNibble → decode c 0x0000 = .instr (.cls 0x00)) ∧
    decode c 0xF000 = .unsupportedOpcode 0xF000 ∧
    ((∀ r ∈ opcodeMap c, r.matchesWord w = false) →
      decode c w = .unsupportedOpcode w ∧
      ∀ (s : State) (r : Byte), s.cfg = c → s.running → s.pc.toNat ≤ 0xFFE → s.fetchWord = w →
        ∃ t, transact (.step r) s = .next (t, .fault t.status) ∧
          t.latched .unsupportedOpcode w s.pc 0 ∧ s.keepsAllButStatus t)

/-! ## The step -/

/-- R91 in the model's names: when the bytes at pc decode to a well-formed instruction, a step of a RUNNING
core is `exec` of it on the same state, but that a fresh random input has been presented; it advances
nothing itself (R94). -/
def Obligations.StepRunsTheDecodedInstruction : Prop :=
  ∀ (s : State) (i : Instr), s.running → s.pc.toNat ≤ 0xFFE → i.wellFormed s.cfg = true →
    decodeBytes s.cfg [s.readByte s.pc.toNat, s.readByte (s.pc.toNat + 1)] = .instr i [] →
    step s = exec i (s.present none) ∧ (s.present none).snapshot = s.snapshot ∧
      (s.present none).cfg = s.cfg ∧
      ∀ r : Byte, stepWith (some r) s = exec i (s.present (some r)) ∧
        (s.present (some r)).snapshot = s.snapshot ∧ (s.present (some r)).draw = r

/-- R91, R92: the STEP transaction in full. It always answers; the latch, the fetch bounds and the decoder
are checked in this order, and what passes is executed; it returns FAULT(status) or OK. -/
def Obligations.StepTransactionFollowsTheCycle : Prop :=
  ∀ (s : State) (r : Byte), ∃ (t : State) (resp : Response),
    transact (.step r) s = .next (t, resp) ∧
    (t.faulted = true → resp = .fault t.status) ∧ (t.faulted = false → resp = .ok) ∧
    (s.faulted = true → t = s) ∧
    (s.running → 0xFFF < s.pc.toNat + 1 →
      (s.present (some r)).entersFault t .outOfBoundsAccess 0 (BitVec.ofNat 16 (max s.pc.toNat 0x1000))) ∧
    (s.running → s.pc.toNat + 1 ≤ 0xFFF →
      (∀ w, decode s.cfg s.fetchWord = .unsupportedOpcode w →
        (s.present (some r)).entersFault t .unsupportedOpcode s.fetchWord 0) ∧
      (∀ i, decode s.cfg s.fetchWord = .instr i → exec i (s.present (some r)) = .next t))

/-- The model's own placing of a word (notes/assumptions/2.md): the very next step runs the instruction that
the word is on the instance it is for. The premise on memory is part of the invariant. -/
def Obligations.PlacedWordRunsNext : Prop :=
  ∀ (s : State) (w : Nat) (i : Instr), s.mem.wf → s.running → s.pc.toNat ≤ 0xFFE →
    decode (s.cfg.forWord (tableWord 16 w)) (tableWord 16 w) = .instr i →
    step (s.withFetchWord 16 w) = exec i ((s.withFetchWord 16 w).present none) ∧
      (s.withFetchWord 16 w).pc = s.pc ∧
      s.keepsMemoryOutside (s.withFetchWord 16 w) s.pc.toNat 2

/-- R52: the opcode is the byte at pc, then the byte at pc + 1, most significant first; with pc + 1 above
0xFFF nothing is fetched and the step raises OutOfBoundsAccess. -/
def Obligations.FetchIsBigEndianAndBounded : Prop :=
  ∀ s : State,
    (s.fetchWord.toNat = (s.readByte s.pc.toNat).toNat * 256 + (s.readByte (s.pc.toNat + 1)).toNat) ∧
    (s.running → 0xFFF < s.pc.toNat + 1 → ∀ r : Option Byte, ∃ t, stepWith r s = .next t ∧
      t.latched .outOfBoundsAccess 0 s.pc (BitVec.ofNat 16 (max s.pc.toNat 0x1000)) ∧
      s.keepsAllButStatus t)

/-- The core itself never stops (R98, R206): every step of every state answers a next state. -/
def Obligations.EveryStepAnswersANextState : Prop :=
  ∀ s : State, ∃ t, step s = .next t

/-! ## Faults -/

/-- R202: fault entry writes every field of the record, as the handlers raise it. -/
def Obligations.FaultEntryLatchesTheRecord : Prop :=
  ∀ (s : State) (kind : FaultKind) (opcode addr : Word),
    (s.raise kind opcode addr).latched kind opcode s.pc addr ∧
    s.keepsAllButStatus (s.raise kind opcode addr) ∧
    (s.raise kind opcode addr).report = .fault (s.raise kind opcode addr).status

/-- R203: a transaction that raises a fault changes nothing but `status`. -/
def Obligations.FaultingTransactionChangesOnlyStatus : Prop :=
  ∀ (s t : State) (tr : Transaction) (resp : Response), s.running →
    transact tr s = .next (t, resp) → t.faulted = true → s.keepsAllButStatus t

/-- R204: while FAULTED, STEP and LOAD change nothing and return FAULT(status), the reads work as usual, RESET
returns to RUNNING with status 0, and nothing else leaves FAULTED. -/
def Obligations.FaultedCoreWaitsForReset : Prop :=
  ∀ s : State, s.faulted = true →
    (∀ r, transact (.step r) s = .next (s, .fault s.status)) ∧
    (∀ bytes, transact (.load bytes) s = .next (s, .fault s.status)) ∧
    transact .fbRead s = .next (s, .cells s.fbCells) ∧
    transact .statusRead s = .next (s, .statusWord s.status) ∧
    transact .stateRead s = .next (s, .tuple s.snapshot) ∧
    (∃ t, transact .reset s = .next (t, .nothing) ∧ t.running ∧ t.status = 0) ∧
    (∀ tr t resp, transact tr s = .next (t, resp) → t.running → tr = .reset)

/-- R207: from a state without a fault, a transaction leaves `status` 0 or exactly one of the five records of
the table, each raised as its row says. -/
def Obligations.FaultRecordsAreTheTableRows : Prop :=
  ∀ (s t : State) (tr : Transaction) (resp : Response), s.status = 0 →
    transact tr s = .next (t, resp) →
    t.status = 0 ∨
    (∃ r, tr = .step r ∧ decode s.cfg s.fetchWord = .unsupportedOpcode s.fetchWord ∧
      t.latched .unsupportedOpcode s.fetchWord s.pc 0 ∧ t.faultCode = 1) ∨
    (∃ r mid, tr = .step r ∧ decode s.cfg s.fetchWord = .instr (.ret mid) ∧ s.S = [] ∧
      t.latched .stackUnderflow s.fetchWord s.pc 0 ∧ t.faultCode = 2) ∨
    (∃ bytes, tr = .load bytes ∧ 0xE00 < bytes.length ∧
      t.latched .outOfBoundsLoad 0 s.pc 0x1000 ∧ t.faultCode = 3) ∨
    (∃ r, tr = .step r ∧ t.faultCode = 4 ∧
      ((0xFFF ≤ s.pc.toNat ∧
          t.latched .outOfBoundsAccess 0 s.pc (BitVec.ofNat 16 (max s.pc.toNat 0x1000))) ∨
        (∃ i, decode s.cfg s.fetchWord = .instr i ∧
          (i.mnemonic = "DRW_Vx__Vy__n" ∨ i.mnemonic = "LD__I___Vx" ∨ i.mnemonic = "LD_Vx___I") ∧
          t.latched .outOfBoundsAccess s.fetchWord s.pc (BitVec.ofNat 16 (max s.I.toNat 0x1000))))) ∨
    (∃ r nnn, tr = .step r ∧ decode s.cfg s.fetchWord = .instr (.call nnn) ∧
      t.latched .stackOverflow s.fetchWord s.pc 0 ∧ t.faultCode = 5)

/-! ## Reset, load and the read ports -/

/-- R230, R35: RESET works in every state and gives every element of the tuple its reset value. -/
def Obligations.ResetSetsEveryElement : Prop :=
  ∀ s : State, ∃ t, transact .reset s = .next (t, .nothing) ∧
    (∀ a, t.readByte a = 0x00) ∧ (∀ x, t.readV x = 0x00) ∧ t.I = 0x0000 ∧ t.pc = 0x0200 ∧ t.S = [] ∧
    (∀ x y, t.FB.cell x y = false) ∧ t.status = 0 ∧ t.running

/-- The invariant holds right after reset, on every build that R10 admits, the model's own reset state among
them. -/
def Obligations.ResetMeetsTheInvariant : Prop :=
  State.reset.Inv ∧ ∀ c : Config, c.valid = true → (State.resetWith c).Inv

/-- R61: LOAD copies the image from 0x200 and touches nothing else, on a RUNNING core and for at most 0xE00
bytes. The premise on memory is part of the invariant. -/
def Obligations.LoadCopiesTheImageTo0x200 : Prop :=
  ∀ (s : State) (bytes : List Byte), s.mem.wf → s.running → bytes.length ≤ 0xE00 →
    ∃ t, transact (.load bytes) s = .next (t, .ok) ∧
      (∀ k, k < bytes.length → t.readByte (0x200 + k) = bytes.getD k 0) ∧
      s.keepsMemoryOutside t 0x200 bytes.length ∧
      s.keepsRegs t ∧ t.I = s.I ∧ t.pc = s.pc ∧ t.S = s.S ∧ s.keepsCells t ∧ s.keepsControl t ∧
      (bytes = [] → t = s)

/-- R62, R210: an image of more than 0xE00 bytes is rejected whole, with the fault OutOfBoundsLoad. -/
def Obligations.OversizedImageIsRejected : Prop :=
  ∀ (s : State) (bytes : List Byte), s.running → 0xE00 < bytes.length →
    ∃ t, transact (.load bytes) s = .next (t, .fault t.status) ∧
      s.entersFault t .outOfBoundsLoad 0 0x1000

/-- R110: FB_READ returns 2048 values, element k is cell (k mod 64, k div 64), and nothing changes. -/
def Obligations.FramebufferReadIsRowByRow : Prop :=
  ∀ s : State, ∃ values, transact .fbRead s = .next (s, .cells values) ∧ values.length = 2048 ∧
    ∀ k, k < 2048 → values.getD k 0 = if s.FB.cell (k % 64) (k / 64) = true then 1 else 0

/-! ## Display -/

/-- R111: CLS. -/
def Obligations.ClsClearsEveryCell : Prop :=
  decodesInBoth 0x00E0 (.cls 0x0E) ∧
  (∀ (c : Config) (mid : Byte), c.zeroGroupDecode = .lowNibble →
    decode c (0x0#4 ++ mid ++ 0x0#4) = .instr (.cls mid)) ∧
  ∀ (mid : Byte) (s : State), ∃ t, exec (.cls mid) s = .next t ∧
    (∀ x y, t.FB.cell x y = false) ∧ t.pc.toNat = (s.pc.toNat + 2) % 2 ^ 16 ∧
    s.keepsMemory t ∧ s.keepsRegs t ∧ t.I = s.I ∧ t.S = s.S ∧ s.keepsControl t

/-- R112, R113, R114: DRW draws the sprite at I by XOR, each pixel taken modulo the framebuffer's size and
bit 7 leftmost, sets VF to the collision flag, and raises OutOfBoundsAccess when a sprite byte lies past
0xFFF. -/
def Obligations.DrwDrawsByXorAndSetsCollision : Prop :=
  ∀ (x y n : Nibble),
    decodesInBoth (0xD#4 ++ x ++ y ++ n) (.drw x y n) ∧
    ∀ s : State,
      (0 < n.toNat → 0xFFF < s.I.toNat + n.toNat - 1 →
        ∃ t, exec (.drw x y n) s = .next t ∧
          s.entersFault t .outOfBoundsAccess (0xD#4 ++ x ++ y ++ n)
            (BitVec.ofNat 16 (max s.I.toNat 0x1000))) ∧
      (¬ (0 < n.toNat ∧ 0xFFF < s.I.toNat + n.toNat - 1) →
        ∃ t, exec (.drw x y n) s = .next t ∧
          (∀ cx cy, cx < 64 → cy < 32 →
            (s.spriteCovers (s.readV x) (s.readV y) n cx cy → t.FB.cell cx cy = !(s.FB.cell cx cy)) ∧
            (¬ s.spriteCovers (s.readV x) (s.readV y) n cx cy → t.FB.cell cx cy = s.FB.cell cx cy)) ∧
          ((∃ cx cy, cx < 64 ∧ cy < 32 ∧ s.spriteCovers (s.readV x) (s.readV y) n cx cy ∧
              s.FB.cell cx cy = true) → t.readV 0xF = 1) ∧
          ((∀ cx cy, cx < 64 → cy < 32 → s.spriteCovers (s.readV x) (s.readV y) n cx cy →
              s.FB.cell cx cy = false) → t.readV 0xF = 0) ∧
          t.pc.toNat = (s.pc.toNat + 2) % 2 ^ 16 ∧
          s.keepsMemory t ∧ s.keepsRegsBut t (fun j => j = 0xF) ∧ t.I = s.I ∧ t.S = s.S ∧
          s.keepsControl t)

/-- R112, R115 and R116 as far as these agree: drawing the same sprite twice at the same place restores the
framebuffer; the second draw collides exactly when a 1-bit of the sprite lands on a cell that was 0 before
the first. So a sprite with a 1-bit whose first draw erased nothing collides on the second, and one whose
bytes are all 0 does not (notes/assumptions/10.md says why the second sentence of R116 is not stated
without the premise on the first draw). -/
def Obligations.DrawingTwiceRestoresTheFramebuffer : Prop :=
  ∀ (x y n : Nibble) (s t u : State), outOfBounds s.I n.toNat = false →
    exec (.drw x y n) s = .next t → t.readV x = s.readV x → t.readV y = s.readV y →
    exec (.drw x y n) t = .next u →
    u.FB = s.FB ∧
      (u.readV 0xF = 1 ↔ ∃ cx cy, cx < 64 ∧ cy < 32 ∧
        s.spriteCovers (s.readV x) (s.readV y) n cx cy ∧ s.FB.cell cx cy = false) ∧
      (u.readV 0xF = 0 ↔ ∀ cx cy, cx < 64 → cy < 32 →
        s.spriteCovers (s.readV x) (s.readV y) n cx cy → s.FB.cell cx cy = true) ∧
      (t.readV 0xF = 0 → (∃ row, row < n.toNat ∧ s.readByte (s.I.toNat + row) ≠ 0) → u.readV 0xF = 1) ∧
      ((∀ row, row < n.toNat → s.readByte (s.I.toNat + row) = 0) → u.readV 0xF = 0)

/-- The second sentence of R116 as it stands: the second of two draws sets VF to 1 whenever the sprite has a
1-bit. It is expected to fail of any machine that follows R112: where every cell the sprite covers was 1,
the first draw erases them and the second erases none (notes/assumptions/10.md). -/
def Obligations.SecondDrawAlwaysCollides : Prop :=
  ∀ (x y n : Nibble) (s t u : State), outOfBounds s.I n.toNat = false →
    exec (.drw x y n) s = .next t → t.readV x = s.readV x → t.readV y = s.readV y →
    exec (.drw x y n) t = .next u →
    (∃ row, row < n.toNat ∧ s.readByte (s.I.toNat + row) ≠ 0) → u.readV 0xF = 1

/-! ## Control flow -/

/-- R130: RET pops the stack into pc, and raises StackUnderflow when it is empty. -/
def Obligations.RetPopsIntoPc : Prop :=
  decodesInBoth 0x00EE (.ret 0x0E) ∧
  (∀ (c : Config) (mid : Byte), c.zeroGroupDecode = .lowNibble →
    decode c (0x0#4 ++ mid ++ 0xE#4) = .instr (.ret mid)) ∧
  ∀ (mid : Byte) (s : State),
    (s.S = [] → ∃ t, exec (.ret mid) s = .next t ∧
      s.entersFault t .stackUnderflow (0x0#4 ++ mid ++ 0xE#4) 0) ∧
    (∀ top rest, s.S = top :: rest → ∃ t, exec (.ret mid) s = .next t ∧
      t.pc = top ∧ t.S = rest ∧
      s.keepsMemory t ∧ s.keepsRegs t ∧ t.I = s.I ∧ s.keepsCells t ∧ s.keepsControl t)

/-- R132: JP sets pc to nnn. -/
def Obligations.JpSetsPc : Prop :=
  ∀ nnn : Addr12, decodesInBoth (0x1#4 ++ nnn) (.jp nnn) ∧
    ∀ s : State, ∃ t, exec (.jp nnn) s = .next t ∧ t.pc.toNat = nnn.toNat ∧
      s.keepsRegs t ∧ t.I = s.I ∧ s.keepsAllButRegs t

/-- R134: SE skips the next instruction when V[x] equals the immediate. -/
def Obligations.SeSkipsOnEquality : Prop :=
  ∀ (x : Nibble) (kk : Byte), decodesInBoth (0x3#4 ++ x ++ kk) (.seByte x kk) ∧
    ∀ s : State, ∃ t, exec (.seByte x kk) s = .next t ∧
      (s.readV x = kk → t.pc.toNat = (s.pc.toNat + 4) % 2 ^ 16) ∧
      (s.readV x ≠ kk → t.pc.toNat = (s.pc.toNat + 2) % 2 ^ 16) ∧
      s.keepsRegs t ∧ t.I = s.I ∧ s.keepsAllButRegs t

/-- R136: CALL pushes p + 2 and jumps, and raises StackOverflow when the stack holds `STACK_DEPTH` entries;
with `STACK_DEPTH` unbounded it never does. -/
def Obligations.CallPushesTheReturnAddress : Prop :=
  ∀ nnn : Addr12, decodesInExtended (0x2#4 ++ nnn) (.call nnn) ∧
    ∀ s : State,
      (s.cfg.stackDepth = .bounded s.S.length → ∃ t, exec (.call nnn) s = .next t ∧
        s.entersFault t .stackOverflow (0x2#4 ++ nnn) 0) ∧
      (s.cfg.stackDepth ≠ .bounded s.S.length → ∃ t, exec (.call nnn) s = .next t ∧
        t.pc.toNat = nnn.toNat ∧
        (∃ a : Word, t.S = a :: s.S ∧ a.toNat = (s.pc.toNat + 2) % 2 ^ 16) ∧
        s.keepsMemory t ∧ s.keepsRegs t ∧ t.I = s.I ∧ s.keepsCells t ∧ s.keepsControl t)

/-- R136, R130: a RET with the stack as CALL left it resumes at the instruction after the CALL, with the stack
as it was before. -/
def Obligations.RetResumesAfterTheCall : Prop :=
  ∀ (nnn : Addr12) (mid : Byte) (s t u : State), s.running → exec (.call nnn) s = .next t → t.running →
    u.S = t.S → ∃ v, exec (.ret mid) u = .next v ∧ v.pc = s.pc + 2 ∧ v.S = s.S

/-! ## Register-immediate -/

/-- R150: LD Vx, byte. -/
def Obligations.LdByteLoadsTheImmediate : Prop :=
  ∀ (x : Nibble) (kk : Byte), decodesInBoth (0x6#4 ++ x ++ kk) (.ldByte x kk) ∧
    ∀ s : State, ∃ t, exec (.ldByte x kk) s = .next t ∧ t.readV x = kk ∧
      t.pc.toNat = (s.pc.toNat + 2) % 2 ^ 16 ∧
      s.keepsRegsBut t (fun j => j = x) ∧ t.I = s.I ∧ s.keepsAllButRegs t

/-- R152: ADD Vx, byte wraps modulo 2^8 and writes no flag. -/
def Obligations.AddByteWrapsWithoutFlag : Prop :=
  ∀ (x : Nibble) (kk : Byte), decodesInBoth (0x7#4 ++ x ++ kk) (.addByte x kk) ∧
    ∀ s : State, ∃ t, exec (.addByte x kk) s = .next t ∧
      (t.readV x).toNat = ((s.readV x).toNat + kk.toNat) % 2 ^ 8 ∧
      t.pc.toNat = (s.pc.toNat + 2) % 2 ^ 16 ∧
      s.keepsRegsBut t (fun j => j = x) ∧ t.I = s.I ∧ s.keepsAllButRegs t

/-- R154: LD I, addr. -/
def Obligations.LdISetsTheAddressRegister : Prop :=
  ∀ nnn : Addr12, decodesInBoth (0xA#4 ++ nnn) (.ldI nnn) ∧
    ∀ s : State, ∃ t, exec (.ldI nnn) s = .next t ∧ t.I.toNat = nnn.toNat ∧
      t.pc.toNat = (s.pc.toNat + 2) % 2 ^ 16 ∧ s.keepsRegs t ∧ s.keepsAllButRegs t

/-- R156: RND Vx, byte ANDs the step's random input with the mask; the result has no bit outside the mask,
whatever the input. -/
def Obligations.RndMasksTheRandomInput : Prop :=
  ∀ (x : Nibble) (kk : Byte), decodesInBoth (0xC#4 ++ x ++ kk) (.rnd x kk) ∧
    ∀ s : State, ∃ t, exec (.rnd x kk) s = .next t ∧
      (∀ r : Byte, s.rIn = some r → t.readV x = r &&& kk) ∧
      (t.readV x &&& ~~~kk = 0) ∧ (kk = 0 → t.readV x = 0) ∧
      t.pc.toNat = (s.pc.toNat + 2) % 2 ^ 16 ∧
      s.keepsRegsBut t (fun j => j = x) ∧ t.I = s.I ∧ s.keepsAllButRegs t

/-! ## ALU -/

/-- R170: OR Vx, Vy. -/
def Obligations.OrRegIsBitwiseOr : Prop :=
  ∀ x y : Nibble, decodesInExtended (0x8#4 ++ x ++ y ++ 0x1#4) (.orReg x y) ∧
    ∀ s : State, ∃ t, exec (.orReg x y) s = .next t ∧
      (¬ (s.cfg.logicResetsVF = true ∧ x = 0xF) → t.readV x = s.readV x ||| s.readV y) ∧
      (s.cfg.logicResetsVF = true → t.readV 0xF = 0) ∧
      s.keepsRegsBut t (fun j => j = x ∨ (s.cfg.logicResetsVF = true ∧ j = 0xF)) ∧
      t.pc.toNat = (s.pc.toNat + 2) % 2 ^ 16 ∧ t.I = s.I ∧ s.keepsAllButRegs t

/-- R172: AND Vx, Vy. -/
def Obligations.AndRegIsBitwiseAnd : Prop :=
  ∀ x y : Nibble, decodesInExtended (0x8#4 ++ x ++ y ++ 0x2#4) (.andReg x y) ∧
    ∀ s : State, ∃ t, exec (.andReg x y) s = .next t ∧
      (¬ (s.cfg.logicResetsVF = true ∧ x = 0xF) → t.readV x = s.readV x &&& s.readV y) ∧
      (s.cfg.logicResetsVF = true → t.readV 0xF = 0) ∧
      s.keepsRegsBut t (fun j => j = x ∨ (s.cfg.logicResetsVF = true ∧ j = 0xF)) ∧
      t.pc.toNat = (s.pc.toNat + 2) % 2 ^ 16 ∧ t.I = s.I ∧ s.keepsAllButRegs t

/-- R174: XOR Vx, Vy. -/
def Obligations.XorRegIsBitwiseXor : Prop :=
  ∀ x y : Nibble, decodesInExtended (0x8#4 ++ x ++ y ++ 0x3#4) (.xorReg x y) ∧
    ∀ s : State, ∃ t, exec (.xorReg x y) s = .next t ∧
      (¬ (s.cfg.logicResetsVF = true ∧ x = 0xF) → t.readV x = s.readV x ^^^ s.readV y) ∧
      (s.cfg.logicResetsVF = true → t.readV 0xF = 0) ∧ (x = y → t.readV x = 0) ∧
      s.keepsRegsBut t (fun j => j = x ∨ (s.cfg.logicResetsVF = true ∧ j = 0xF)) ∧
      t.pc.toNat = (s.pc.toNat + 2) % 2 ^ 16 ∧ t.I = s.I ∧ s.keepsAllButRegs t

/-- R176: ADD Vx, Vy with the carry into VF, written last. -/
def Obligations.AddRegSetsTheCarry : Prop :=
  ∀ x y : Nibble, decodesInExtended (0x8#4 ++ x ++ y ++ 0x4#4) (.addReg x y) ∧
    ∀ s : State, ∃ t, exec (.addReg x y) s = .next t ∧
      (x ≠ 0xF → (t.readV x).toNat = ((s.readV x).toNat + (s.readV y).toNat) % 2 ^ 8) ∧
      (256 ≤ (s.readV x).toNat + (s.readV y).toNat → t.readV 0xF = 1) ∧
      ((s.readV x).toNat + (s.readV y).toNat < 256 → t.readV 0xF = 0) ∧
      s.keepsRegsBut t (fun j => j = x ∨ j = 0xF) ∧
      t.pc.toNat = (s.pc.toNat + 2) % 2 ^ 16 ∧ t.I = s.I ∧ s.keepsAllButRegs t

/-- R178: SHR Vx, Vy halves the shifted operand; VF gets the bit shifted out, written last. -/
def Obligations.ShrShiftsRightIntoVF : Prop :=
  ∀ x y : Nibble, decodesInExtended (0x8#4 ++ x ++ y ++ 0x6#4) (.shr x y) ∧
    ∀ s : State, ∃ t, exec (.shr x y) s = .next t ∧
      (x ≠ 0xF → (t.readV x).toNat = (s.readV (if s.cfg.shiftSource = .vx then x else y)).toNat / 2) ∧
      (t.readV 0xF).toNat = (s.readV (if s.cfg.shiftSource = .vx then x else y)).toNat % 2 ∧
      s.keepsRegsBut t (fun j => j = x ∨ j = 0xF) ∧
      t.pc.toNat = (s.pc.toNat + 2) % 2 ^ 16 ∧ t.I = s.I ∧ s.keepsAllButRegs t

/-- R180: SHL Vx, Vy doubles the shifted operand modulo 2^8; VF gets the bit shifted out, written last. -/
def Obligations.ShlShiftsLeftIntoVF : Prop :=
  ∀ x y : Nibble, decodesInExtended (0x8#4 ++ x ++ y ++ 0xE#4) (.shl x y) ∧
    ∀ s : State, ∃ t, exec (.shl x y) s = .next t ∧
      (x ≠ 0xF →
        (t.readV x).toNat = (s.readV (if s.cfg.shiftSource = .vx then x else y)).toNat * 2 % 2 ^ 8) ∧
      (t.readV 0xF).toNat = (s.readV (if s.cfg.shiftSource = .vx then x else y)).toNat / 128 ∧
      s.keepsRegsBut t (fun j => j = x ∨ j = 0xF) ∧
      t.pc.toNat = (s.pc.toNat + 2) % 2 ^ 16 ∧ t.I = s.I ∧ s.keepsAllButRegs t

/-! ## Register block store and load -/

/-- R190, R194: LD [I], Vx stores V0 to V[x] at I and leaves every other byte alone, or raises
OutOfBoundsAccess and stores nothing. The premise on memory is part of the invariant. -/
def Obligations.StoreRegsWritesTheBlockAtI : Prop :=
  ∀ x : Nibble, decodesInExtended (0xF#4 ++ x ++ 0x55#8) (.storeRegs x) ∧
    ∀ s : State, s.mem.wf →
      (0xFFF < s.I.toNat + x.toNat → ∃ t, exec (.storeRegs x) s = .next t ∧
        s.entersFault t .outOfBoundsAccess (0xF#4 ++ x ++ 0x55#8)
          (BitVec.ofNat 16 (max s.I.toNat 0x1000))) ∧
      (s.I.toNat + x.toNat ≤ 0xFFF → ∃ t, exec (.storeRegs x) s = .next t ∧
        (∀ k, k ≤ x.toNat → t.readByte (s.I.toNat + k) = s.readV (BitVec.ofNat 4 k)) ∧
        s.keepsMemoryOutside t s.I.toNat (x.toNat + 1) ∧
        (s.cfg.loadStoreIncrementsI = false → t.I = s.I) ∧
        (s.cfg.loadStoreIncrementsI = true → t.I.toNat = (s.I.toNat + x.toNat + 1) % 2 ^ 16) ∧
        t.pc.toNat = (s.pc.toNat + 2) % 2 ^ 16 ∧
        s.keepsRegs t ∧ s.keepsCells t ∧ t.S = s.S ∧ s.keepsControl t)

/-- R192, R194: LD Vx, [I] loads V0 to V[x] from memory at I and leaves the registers above x alone, or raises
OutOfBoundsAccess and loads nothing. -/
def Obligations.LoadRegsReadsTheBlockAtI : Prop :=
  ∀ x : Nibble, decodesInExtended (0xF#4 ++ x ++ 0x65#8) (.loadRegs x) ∧
    ∀ s : State,
      (0xFFF < s.I.toNat + x.toNat → ∃ t, exec (.loadRegs x) s = .next t ∧
        s.entersFault t .outOfBoundsAccess (0xF#4 ++ x ++ 0x65#8)
          (BitVec.ofNat 16 (max s.I.toNat 0x1000))) ∧
      (s.I.toNat + x.toNat ≤ 0xFFF → ∃ t, exec (.loadRegs x) s = .next t ∧
        (∀ k, k ≤ x.toNat → t.readV (BitVec.ofNat 4 k) = s.readByte (s.I.toNat + k)) ∧
        s.keepsRegsBut t (fun j => j ≤ x) ∧
        (s.cfg.loadStoreIncrementsI = false → t.I = s.I) ∧
        (s.cfg.loadStoreIncrementsI = true → t.I.toNat = (s.I.toNat + x.toNat + 1) % 2 ^ 16) ∧
        t.pc.toNat = (s.pc.toNat + 2) % 2 ^ 16 ∧ s.keepsAllButRegs t)

/-! ## Whole-machine rules -/

/-- R28: the pc table, every instruction of it: an instruction that does not fault sets pc as its row says,
and any faulting step, in a handler, at the fetch or in the decoder, leaves it. -/
def Obligations.PcFollowsTheTable : Prop :=
  (∀ (i : Instr) (s t : State), s.running → exec i s = .next t →
    (t.faulted = false → t.pc.toNat = nextPc i s) ∧ (t.faulted = true → t.pc = s.pc)) ∧
  (∀ s t : State, step s = .next t → t.faulted = true → t.pc = s.pc)

/-- R23: an instruction writes no V register but those of its row, and the V registers it does not read
influence nothing: not the pc, I, stack, memory, framebuffer or fault record, nor a register it writes. -/
def Obligations.RegistersFollowTheReadWriteTable : Prop :=
  (∀ (i : Instr) (s t : State), exec i s = .next t → s.keepsRegsBut t (writesV s.cfg i)) ∧
  (∀ (i : Instr) (s s' t t' : State), s' = { s with V := s'.V } →
    (∀ j, readsV s.cfg i j → s'.readV j = s.readV j) →
    exec i s = .next t → exec i s' = .next t' →
    t'.pc = t.pc ∧ t'.I = t.I ∧ t'.S = t.S ∧ t'.mem = t.mem ∧ t'.FB = t.FB ∧ t'.status = t.status ∧
      ∀ j, t'.readV j = t.readV j ∨ (t'.readV j = s'.readV j ∧ t.readV j = s.readV j))

/-- R59, R68: no step writes a byte of memory but one that executes LD [I], Vx, and in `SOURCE` none does, so a
program there cannot modify itself. -/
def Obligations.OnlyTheBlockStoreWritesMemory : Prop :=
  (∀ (i : Instr) (s t : State), exec i s = .next t → i.mnemonic ≠ "LD__I___Vx" → s.keepsMemory t) ∧
  (∀ s t : State, s.cfg.profile = .source → step s = .next t → s.keepsMemory t)

/-- R33: the framebuffer is written by CLS and DRW only. -/
def Obligations.OnlyClsAndDrwWriteTheFramebuffer : Prop :=
  ∀ (i : Instr) (s t : State), exec i s = .next t → i.mnemonic ≠ "CLS" → i.mnemonic ≠ "DRW_Vx__Vy__n" →
    s.keepsCells t

/-- R31: RET only pops the call stack, CALL only pushes it, and no other instruction touches it. -/
def Obligations.OnlyRetAndCallTouchTheStack : Prop :=
  ∀ (i : Instr) (s t : State), exec i s = .next t →
    t.S = s.S ∨
    (i.mnemonic = "RET" ∧ ∃ top, s.S = top :: t.S) ∨
    (i.mnemonic = "CALL_addr" ∧ ∃ a, t.S = a :: s.S)

/-- R25: I is written by LD I, addr, and by the block load and store where the build increments I; no other
instruction changes it. -/
def Obligations.OnlyItsWritersChangeI : Prop :=
  ∀ (i : Instr) (s t : State), exec i s = .next t → t.I ≠ s.I →
    i.mnemonic = "LD_I__addr" ∨
    (s.cfg.loadStoreIncrementsI = true ∧ (i.mnemonic = "LD__I___Vx" ∨ i.mnemonic = "LD_Vx___I"))

/-- R93: only RND reads the random input: two STEPs from one state that differ in it leave the same tuple and
return the same, unless the word at pc is a RND. -/
def Obligations.RandomInputReachesOnlyRnd : Prop :=
  ∀ (s : State) (r q : Byte), (∀ x kk, decode s.cfg s.fetchWord ≠ .instr (.rnd x kk)) →
    ∃ t u resp, transact (.step r) s = .next (t, resp) ∧ transact (.step q) s = .next (u, resp) ∧
      t.snapshot = u.snapshot

/-- R98: a parked core is a fixed point of STEP for every random input: the tuple of R20 stays as it is and
STEP returns OK. -/
def Obligations.ParkedCoreIsAFixedPoint : Prop :=
  ∀ (s : State) (r : Byte), s.parked →
    ∃ t, transact (.step r) s = .next (t, .ok) ∧ t.snapshot = s.snapshot ∧ t.parked

/-- R68: a store is seen by the next fetch: after LD [I], Vx over the two bytes that pc points to next, the
next opcode is the two registers stored there. -/
def Obligations.NextFetchSeesTheStore : Prop :=
  ∀ (x : Nibble) (s t : State) (k : Nat), s.mem.wf → s.I.toNat + x.toNat ≤ 0xFFF → k + 1 ≤ x.toNat →
    exec (.storeRegs x) s = .next t → t.pc.toNat = s.I.toNat + k →
    t.fetchWord = wordOfBytes (s.readV (BitVec.ofNat 4 k)) (s.readV (BitVec.ofNat 4 (k + 1)))

/-- The model's memory is canonical (notes/assumptions/7.md): two well-formed memories that read alike at every
address are the same list. -/
def Obligations.WellFormedMemoriesThatReadAlikeAreEqual : Prop :=
  ∀ m q : Memory, m.wf → q.wf → (∀ a, a ≤ 0xFFF → m.read a = q.read a) → m = q

/-- The build is fixed (R10, C10): no transaction changes it. -/
def Obligations.NoTransactionChangesTheBuild : Prop :=
  ∀ (tr : Transaction) (s t : State) (resp : Response), transact tr s = .next (t, resp) → t.cfg = s.cfg

/-- R26, R30, R32, R36 and the canonical form of memory: a step keeps the invariant, from every state that
meets it. -/
def Obligations.StepKeepsTheInvariant : Prop :=
  ∀ s t : State, s.Inv → step s = .next t → t.Inv

/-- Every transaction of the host keeps the invariant, LOAD and STEP with any input among them. -/
def Obligations.TransactionsKeepTheInvariant : Prop :=
  ∀ (tr : Transaction) (s t : State) (resp : Response), s.Inv → transact tr s = .next (t, resp) → t.Inv

/-- R32: on a `SOURCE` instance in a state that meets the invariant, a RET always raises StackUnderflow. -/
def Obligations.RetAlwaysUnderflowsInSource : Prop :=
  ∀ (mid : Byte) (s : State), s.Inv → s.cfg.profile = .source → s.running → s.pc.toNat ≤ 0xFFE →
    decode s.cfg s.fetchWord = .instr (.ret mid) →
    ∃ t, step s = .next t ∧ t.latched .stackUnderflow s.fetchWord s.pc 0 ∧ s.keepsAllButStatus t
end

