-- ==== Sys2Proof/Laws/Decode.lean ====
section
/-! SUPPORT. The fields and the formats as numbers, from which every fact about the decoder and the encoder
follows by arithmetic. -/

namespace Sys2Proof

/-- A concatenation as a number (R11). -/
theorem toNat_concat {m n : Nat} (a : BitVec m) (b : BitVec n) :
    (a ++ b).toNat = a.toNat * 2 ^ n + b.toNat := by
  rw [BitVec.toNat_append, ← Nat.shiftLeft_add_eq_or_of_lt b.isLt, Nat.shiftLeft_eq]

/-! ## Fields of a word (R71) -/

theorem opField_toNat (w : Word) : (opField w).toNat = w.toNat / 4096 := by
  have := w.isLt
  rw [opField, BitVec.extractLsb'_toNat, Nat.shiftRight_eq_div_pow]; omega

theorem xField_toNat (w : Word) : (xField w).toNat = w.toNat / 256 % 16 := by
  rw [xField, BitVec.extractLsb'_toNat, Nat.shiftRight_eq_div_pow]

theorem yField_toNat (w : Word) : (yField w).toNat = w.toNat / 16 % 16 := by
  rw [yField, BitVec.extractLsb'_toNat, Nat.shiftRight_eq_div_pow]

theorem nField_toNat (w : Word) : (nField w).toNat = w.toNat % 16 := by
  rw [nField, BitVec.extractLsb'_toNat, Nat.shiftRight_eq_div_pow]; omega

theorem kkField_toNat (w : Word) : (kkField w).toNat = w.toNat % 256 := by
  rw [kkField, BitVec.extractLsb'_toNat, Nat.shiftRight_eq_div_pow]; omega

theorem nnnField_toNat (w : Word) : (nnnField w).toNat = w.toNat % 4096 := by
  rw [nnnField, BitVec.extractLsb'_toNat, Nat.shiftRight_eq_div_pow]; omega

theorem midField_toNat (w : Word) : (midField w).toNat = w.toNat / 16 % 256 := by
  rw [midField, BitVec.extractLsb'_toNat, Nat.shiftRight_eq_div_pow]

theorem highByte_toNat (w : Word) : (highByte w).toNat = w.toNat / 256 := by
  have := w.isLt
  rw [highByte, BitVec.extractLsb'_toNat, Nat.shiftRight_eq_div_pow]; omega

theorem lowByte_toNat (w : Word) : (lowByte w).toNat = w.toNat % 256 := by
  rw [lowByte, BitVec.extractLsb'_toNat, Nat.shiftRight_eq_div_pow]; omega

/-! ## Fields compared with a constant -/

theorem opField_eq_iff (w : Word) (k : Nat) (hk : k < 16) :
    opField w = BitVec.ofNat 4 k ↔ w.toNat / 4096 = k := by
  rw [← BitVec.toNat_inj, opField_toNat, BitVec.toNat_ofNat, Nat.mod_eq_of_lt (a := k) hk]

theorem nField_eq_iff (w : Word) (k : Nat) (hk : k < 16) :
    nField w = BitVec.ofNat 4 k ↔ w.toNat % 16 = k := by
  rw [← BitVec.toNat_inj, nField_toNat, BitVec.toNat_ofNat, Nat.mod_eq_of_lt (a := k) hk]

theorem kkField_eq_iff (w : Word) (k : Nat) (hk : k < 256) :
    kkField w = BitVec.ofNat 8 k ↔ w.toNat % 256 = k := by
  rw [← BitVec.toNat_inj, kkField_toNat, BitVec.toNat_ofNat, Nat.mod_eq_of_lt (a := k) hk]

theorem word_eq_iff (w : Word) (k : Nat) (hk : k < 65536) : w = BitVec.ofNat 16 k ↔ w.toNat = k := by
  rw [← BitVec.toNat_inj, BitVec.toNat_ofNat, Nat.mod_eq_of_lt (a := k) hk]

/-- A byte pair as a number, the first byte the more significant (R52). -/
theorem wordOfBytes_toNat (hi lo : Byte) : (wordOfBytes hi lo).toNat = hi.toNat * 256 + lo.toNat :=
  toNat_concat hi lo

/-- A word taken apart into its bytes and put together again (R52, R70). -/
theorem wordOfBytes_high_low (w : Word) : wordOfBytes (highByte w) (lowByte w) = w := by
  apply BitVec.eq_of_toNat_eq
  rw [wordOfBytes_toNat, highByte_toNat, lowByte_toNat]; omega

/-! ## The formats as numbers (R72) -/

theorem toNat_nnnFormat (op : Nibble) (nnn : Addr12) :
    BitVec.toNat (w := 16) (op ++ nnn) = op.toNat * 4096 + nnn.toNat :=
  toNat_concat op nnn

theorem toNat_xkkFormat (op x : Nibble) (kk : Byte) :
    BitVec.toNat (w := 16) (op ++ x ++ kk) = op.toNat * 4096 + x.toNat * 256 + kk.toNat := by
  have h := toNat_concat (op ++ x) kk
  rw [toNat_concat op x] at h
  exact h.trans (by omega)

theorem toNat_xynFormat (op x y n : Nibble) :
    BitVec.toNat (w := 16) (op ++ x ++ y ++ n) =
      op.toNat * 4096 + x.toNat * 256 + y.toNat * 16 + n.toNat := by
  have h := toNat_concat (op ++ x ++ y) n
  rw [toNat_concat (op ++ x) y, toNat_concat op x] at h
  exact h.trans (by omega)

theorem toNat_zeroFormat (op : Nibble) (mid : Byte) (n : Nibble) :
    BitVec.toNat (w := 16) (op ++ mid ++ n) = op.toNat * 4096 + mid.toNat * 16 + n.toNat := by
  have h := toNat_concat (op ++ mid) n
  rw [toNat_concat op mid] at h
  exact h.trans (by omega)

/-- The encoded word as a number, per instruction (R77, R84). -/
def encodeNat : Instr → Nat
  | .cls mid => mid.toNat * 16
  | .ret mid => mid.toNat * 16 + 14
  | .jp nnn => 1 * 4096 + nnn.toNat
  | .call nnn => 2 * 4096 + nnn.toNat
  | .seByte x kk => 3 * 4096 + x.toNat * 256 + kk.toNat
  | .ldByte x kk => 6 * 4096 + x.toNat * 256 + kk.toNat
  | .addByte x kk => 7 * 4096 + x.toNat * 256 + kk.toNat
  | .orReg x y => 8 * 4096 + x.toNat * 256 + y.toNat * 16 + 1
  | .andReg x y => 8 * 4096 + x.toNat * 256 + y.toNat * 16 + 2
  | .xorReg x y => 8 * 4096 + x.toNat * 256 + y.toNat * 16 + 3
  | .addReg x y => 8 * 4096 + x.toNat * 256 + y.toNat * 16 + 4
  | .shr x y => 8 * 4096 + x.toNat * 256 + y.toNat * 16 + 6
  | .shl x y => 8 * 4096 + x.toNat * 256 + y.toNat * 16 + 14
  | .ldI nnn => 10 * 4096 + nnn.toNat
  | .rnd x kk => 12 * 4096 + x.toNat * 256 + kk.toNat
  | .drw x y n => 13 * 4096 + x.toNat * 256 + y.toNat * 16 + n.toNat
  | .storeRegs x => 15 * 4096 + x.toNat * 256 + 85
  | .loadRegs x => 15 * 4096 + x.toNat * 256 + 101

/-- What the encoder computes, in numbers. -/
theorem encode_toNat (i : Instr) : (encode i).toNat = encodeNat i := by
  cases i with
  | cls mid => exact (toNat_zeroFormat 0 mid 0).trans (by simp [encodeNat])
  | ret mid => exact (toNat_zeroFormat 0 mid 14).trans (by simp [encodeNat])
  | jp nnn => exact toNat_nnnFormat 1 nnn
  | call nnn => exact toNat_nnnFormat 2 nnn
  | seByte x kk => exact toNat_xkkFormat 3 x kk
  | ldByte x kk => exact toNat_xkkFormat 6 x kk
  | addByte x kk => exact toNat_xkkFormat 7 x kk
  | orReg x y => exact toNat_xynFormat 8 x y 1
  | andReg x y => exact toNat_xynFormat 8 x y 2
  | xorReg x y => exact toNat_xynFormat 8 x y 3
  | addReg x y => exact toNat_xynFormat 8 x y 4
  | shr x y => exact toNat_xynFormat 8 x y 6
  | shl x y => exact toNat_xynFormat 8 x y 14
  | ldI nnn => exact toNat_nnnFormat 10 nnn
  | rnd x kk => exact toNat_xkkFormat 12 x kk
  | drw x y n => exact toNat_xynFormat 13 x y n
  | storeRegs x => exact toNat_xkkFormat 15 x 85
  | loadRegs x => exact toNat_xkkFormat 15 x 101

/-- Two words are equal when their four nibbles are. -/
theorem word_ext_fields (v w : Word) (h1 : opField v = opField w) (h2 : xField v = xField w)
    (h3 : yField v = yField w) (h4 : nField v = nField w) : v = w := by
  have e1 := congrArg BitVec.toNat h1
  have e2 := congrArg BitVec.toNat h2
  have e3 := congrArg BitVec.toNat h3
  have e4 := congrArg BitVec.toNat h4
  simp only [opField_toNat, xField_toNat, yField_toNat, nField_toNat] at e1 e2 e3 e4
  apply BitVec.eq_of_toNat_eq
  omega

end Sys2Proof
end

