-- ==== Sys2Proof/Laws/State.lean ====
section
/-! SUPPORT. One lemma per field per update of the state, so that no later proof unfolds a record update. -/

namespace Sys2Proof.Machine

variable (s : State)

/-! ## writeV -/

@[simp] theorem State.writeV_cfg (x : Nibble) (v : Byte) : (s.writeV x v).cfg = s.cfg := rfl
@[simp] theorem State.writeV_mem (x : Nibble) (v : Byte) : (s.writeV x v).mem = s.mem := rfl
@[simp] theorem State.writeV_V (x : Nibble) (v : Byte) : (s.writeV x v).V = s.V.set x.toNat v := rfl
@[simp] theorem State.writeV_I (x : Nibble) (v : Byte) : (s.writeV x v).I = s.I := rfl
@[simp] theorem State.writeV_pc (x : Nibble) (v : Byte) : (s.writeV x v).pc = s.pc := rfl
@[simp] theorem State.writeV_S (x : Nibble) (v : Byte) : (s.writeV x v).S = s.S := rfl
@[simp] theorem State.writeV_FB (x : Nibble) (v : Byte) : (s.writeV x v).FB = s.FB := rfl
@[simp] theorem State.writeV_status (x : Nibble) (v : Byte) : (s.writeV x v).status = s.status := rfl
@[simp] theorem State.writeV_rIn (x : Nibble) (v : Byte) : (s.writeV x v).rIn = s.rIn := rfl
@[simp] theorem State.writeV_draws (x : Nibble) (v : Byte) : (s.writeV x v).draws = s.draws := rfl

/-! ## writeVF -/

@[simp] theorem State.writeVF_cfg (v : Byte) : (s.writeVF v).cfg = s.cfg := rfl
@[simp] theorem State.writeVF_mem (v : Byte) : (s.writeVF v).mem = s.mem := rfl
@[simp] theorem State.writeVF_V (v : Byte) : (s.writeVF v).V = s.V.set 15 v := rfl
@[simp] theorem State.writeVF_I (v : Byte) : (s.writeVF v).I = s.I := rfl
@[simp] theorem State.writeVF_pc (v : Byte) : (s.writeVF v).pc = s.pc := rfl
@[simp] theorem State.writeVF_S (v : Byte) : (s.writeVF v).S = s.S := rfl
@[simp] theorem State.writeVF_FB (v : Byte) : (s.writeVF v).FB = s.FB := rfl
@[simp] theorem State.writeVF_status (v : Byte) : (s.writeVF v).status = s.status := rfl
@[simp] theorem State.writeVF_rIn (v : Byte) : (s.writeVF v).rIn = s.rIn := rfl
@[simp] theorem State.writeVF_draws (v : Byte) : (s.writeVF v).draws = s.draws := rfl

/-! ## writeI -/

@[simp] theorem State.writeI_cfg (v : Word) : (s.writeI v).cfg = s.cfg := rfl
@[simp] theorem State.writeI_mem (v : Word) : (s.writeI v).mem = s.mem := rfl
@[simp] theorem State.writeI_V (v : Word) : (s.writeI v).V = s.V := rfl
@[simp] theorem State.writeI_I (v : Word) : (s.writeI v).I = v := rfl
@[simp] theorem State.writeI_pc (v : Word) : (s.writeI v).pc = s.pc := rfl
@[simp] theorem State.writeI_S (v : Word) : (s.writeI v).S = s.S := rfl
@[simp] theorem State.writeI_FB (v : Word) : (s.writeI v).FB = s.FB := rfl
@[simp] theorem State.writeI_status (v : Word) : (s.writeI v).status = s.status := rfl
@[simp] theorem State.writeI_rIn (v : Word) : (s.writeI v).rIn = s.rIn := rfl
@[simp] theorem State.writeI_draws (v : Word) : (s.writeI v).draws = s.draws := rfl

/-! ## jump -/

@[simp] theorem State.jump_cfg (a : Word) : (s.jump a).cfg = s.cfg := rfl
@[simp] theorem State.jump_mem (a : Word) : (s.jump a).mem = s.mem := rfl
@[simp] theorem State.jump_V (a : Word) : (s.jump a).V = s.V := rfl
@[simp] theorem State.jump_I (a : Word) : (s.jump a).I = s.I := rfl
@[simp] theorem State.jump_pc (a : Word) : (s.jump a).pc = a := rfl
@[simp] theorem State.jump_S (a : Word) : (s.jump a).S = s.S := rfl
@[simp] theorem State.jump_FB (a : Word) : (s.jump a).FB = s.FB := rfl
@[simp] theorem State.jump_status (a : Word) : (s.jump a).status = s.status := rfl
@[simp] theorem State.jump_rIn (a : Word) : (s.jump a).rIn = s.rIn := rfl
@[simp] theorem State.jump_draws (a : Word) : (s.jump a).draws = s.draws := rfl

/-! ## advance -/

@[simp] theorem State.advance_cfg : (s.advance).cfg = s.cfg := rfl
@[simp] theorem State.advance_mem : (s.advance).mem = s.mem := rfl
@[simp] theorem State.advance_V : (s.advance).V = s.V := rfl
@[simp] theorem State.advance_I : (s.advance).I = s.I := rfl
@[simp] theorem State.advance_pc : (s.advance).pc = s.pc + 2 := rfl
@[simp] theorem State.advance_S : (s.advance).S = s.S := rfl
@[simp] theorem State.advance_FB : (s.advance).FB = s.FB := rfl
@[simp] theorem State.advance_status : (s.advance).status = s.status := rfl
@[simp] theorem State.advance_rIn : (s.advance).rIn = s.rIn := rfl
@[simp] theorem State.advance_draws : (s.advance).draws = s.draws := rfl

/-! ## skip -/

@[simp] theorem State.skip_cfg : (s.skip).cfg = s.cfg := rfl
@[simp] theorem State.skip_mem : (s.skip).mem = s.mem := rfl
@[simp] theorem State.skip_V : (s.skip).V = s.V := rfl
@[simp] theorem State.skip_I : (s.skip).I = s.I := rfl
@[simp] theorem State.skip_pc : (s.skip).pc = s.pc + 4 := rfl
@[simp] theorem State.skip_S : (s.skip).S = s.S := rfl
@[simp] theorem State.skip_FB : (s.skip).FB = s.FB := rfl
@[simp] theorem State.skip_status : (s.skip).status = s.status := rfl
@[simp] theorem State.skip_rIn : (s.skip).rIn = s.rIn := rfl
@[simp] theorem State.skip_draws : (s.skip).draws = s.draws := rfl

/-! ## push -/

@[simp] theorem State.push_cfg (a : Word) : (s.push a).cfg = s.cfg := rfl
@[simp] theorem State.push_mem (a : Word) : (s.push a).mem = s.mem := rfl
@[simp] theorem State.push_V (a : Word) : (s.push a).V = s.V := rfl
@[simp] theorem State.push_I (a : Word) : (s.push a).I = s.I := rfl
@[simp] theorem State.push_pc (a : Word) : (s.push a).pc = s.pc := rfl
@[simp] theorem State.push_S (a : Word) : (s.push a).S = a :: s.S := rfl
@[simp] theorem State.push_FB (a : Word) : (s.push a).FB = s.FB := rfl
@[simp] theorem State.push_status (a : Word) : (s.push a).status = s.status := rfl
@[simp] theorem State.push_rIn (a : Word) : (s.push a).rIn = s.rIn := rfl
@[simp] theorem State.push_draws (a : Word) : (s.push a).draws = s.draws := rfl

/-! ## dropTop -/

@[simp] theorem State.dropTop_cfg : (s.dropTop).cfg = s.cfg := rfl
@[simp] theorem State.dropTop_mem : (s.dropTop).mem = s.mem := rfl
@[simp] theorem State.dropTop_V : (s.dropTop).V = s.V := rfl
@[simp] theorem State.dropTop_I : (s.dropTop).I = s.I := rfl
@[simp] theorem State.dropTop_pc : (s.dropTop).pc = s.pc := rfl
@[simp] theorem State.dropTop_S : (s.dropTop).S = s.S.tail := rfl
@[simp] theorem State.dropTop_FB : (s.dropTop).FB = s.FB := rfl
@[simp] theorem State.dropTop_status : (s.dropTop).status = s.status := rfl
@[simp] theorem State.dropTop_rIn : (s.dropTop).rIn = s.rIn := rfl
@[simp] theorem State.dropTop_draws : (s.dropTop).draws = s.draws := rfl

/-! ## writeBytes -/

@[simp] theorem State.writeBytes_cfg (a : Nat) (bs : List Byte) : (s.writeBytes a bs).cfg = s.cfg := rfl
@[simp] theorem State.writeBytes_mem (a : Nat) (bs : List Byte) : (s.writeBytes a bs).mem = s.mem.writeBytes a bs := rfl
@[simp] theorem State.writeBytes_V (a : Nat) (bs : List Byte) : (s.writeBytes a bs).V = s.V := rfl
@[simp] theorem State.writeBytes_I (a : Nat) (bs : List Byte) : (s.writeBytes a bs).I = s.I := rfl
@[simp] theorem State.writeBytes_pc (a : Nat) (bs : List Byte) : (s.writeBytes a bs).pc = s.pc := rfl
@[simp] theorem State.writeBytes_S (a : Nat) (bs : List Byte) : (s.writeBytes a bs).S = s.S := rfl
@[simp] theorem State.writeBytes_FB (a : Nat) (bs : List Byte) : (s.writeBytes a bs).FB = s.FB := rfl
@[simp] theorem State.writeBytes_status (a : Nat) (bs : List Byte) : (s.writeBytes a bs).status = s.status := rfl
@[simp] theorem State.writeBytes_rIn (a : Nat) (bs : List Byte) : (s.writeBytes a bs).rIn = s.rIn := rfl
@[simp] theorem State.writeBytes_draws (a : Nat) (bs : List Byte) : (s.writeBytes a bs).draws = s.draws := rfl

/-! ## writeFB -/

@[simp] theorem State.writeFB_cfg (fb : Framebuffer) : (s.writeFB fb).cfg = s.cfg := rfl
@[simp] theorem State.writeFB_mem (fb : Framebuffer) : (s.writeFB fb).mem = s.mem := rfl
@[simp] theorem State.writeFB_V (fb : Framebuffer) : (s.writeFB fb).V = s.V := rfl
@[simp] theorem State.writeFB_I (fb : Framebuffer) : (s.writeFB fb).I = s.I := rfl
@[simp] theorem State.writeFB_pc (fb : Framebuffer) : (s.writeFB fb).pc = s.pc := rfl
@[simp] theorem State.writeFB_S (fb : Framebuffer) : (s.writeFB fb).S = s.S := rfl
@[simp] theorem State.writeFB_FB (fb : Framebuffer) : (s.writeFB fb).FB = fb := rfl
@[simp] theorem State.writeFB_status (fb : Framebuffer) : (s.writeFB fb).status = s.status := rfl
@[simp] theorem State.writeFB_rIn (fb : Framebuffer) : (s.writeFB fb).rIn = s.rIn := rfl
@[simp] theorem State.writeFB_draws (fb : Framebuffer) : (s.writeFB fb).draws = s.draws := rfl

/-! ## raise -/

@[simp] theorem State.raise_cfg (k : FaultKind) (o a : Word) : (s.raise k o a).cfg = s.cfg := rfl
@[simp] theorem State.raise_mem (k : FaultKind) (o a : Word) : (s.raise k o a).mem = s.mem := rfl
@[simp] theorem State.raise_V (k : FaultKind) (o a : Word) : (s.raise k o a).V = s.V := rfl
@[simp] theorem State.raise_I (k : FaultKind) (o a : Word) : (s.raise k o a).I = s.I := rfl
@[simp] theorem State.raise_pc (k : FaultKind) (o a : Word) : (s.raise k o a).pc = s.pc := rfl
@[simp] theorem State.raise_S (k : FaultKind) (o a : Word) : (s.raise k o a).S = s.S := rfl
@[simp] theorem State.raise_FB (k : FaultKind) (o a : Word) : (s.raise k o a).FB = s.FB := rfl
@[simp] theorem State.raise_status (k : FaultKind) (o a : Word) : (s.raise k o a).status = statusWord k.code o s.pc a := rfl
@[simp] theorem State.raise_rIn (k : FaultKind) (o a : Word) : (s.raise k o a).rIn = s.rIn := rfl
@[simp] theorem State.raise_draws (k : FaultKind) (o a : Word) : (s.raise k o a).draws = s.draws := rfl

/-! ## present -/

@[simp] theorem State.present_cfg (r : Option Byte) : (s.present r).cfg = s.cfg := rfl
@[simp] theorem State.present_mem (r : Option Byte) : (s.present r).mem = s.mem := rfl
@[simp] theorem State.present_V (r : Option Byte) : (s.present r).V = s.V := rfl
@[simp] theorem State.present_I (r : Option Byte) : (s.present r).I = s.I := rfl
@[simp] theorem State.present_pc (r : Option Byte) : (s.present r).pc = s.pc := rfl
@[simp] theorem State.present_S (r : Option Byte) : (s.present r).S = s.S := rfl
@[simp] theorem State.present_FB (r : Option Byte) : (s.present r).FB = s.FB := rfl
@[simp] theorem State.present_status (r : Option Byte) : (s.present r).status = s.status := rfl
@[simp] theorem State.present_rIn (r : Option Byte) : (s.present r).rIn = r := rfl
@[simp] theorem State.present_draws (r : Option Byte) : (s.present r).draws = s.draws + 1 := rfl

/-! ## logicFlag -/

@[simp] theorem State.logicFlag_cfg : s.logicFlag.cfg = s.cfg := by
  unfold State.logicFlag; split <;> rfl
@[simp] theorem State.logicFlag_mem : s.logicFlag.mem = s.mem := by
  unfold State.logicFlag; split <;> rfl
@[simp] theorem State.logicFlag_I : s.logicFlag.I = s.I := by
  unfold State.logicFlag; split <;> rfl
@[simp] theorem State.logicFlag_pc : s.logicFlag.pc = s.pc := by
  unfold State.logicFlag; split <;> rfl
@[simp] theorem State.logicFlag_S : s.logicFlag.S = s.S := by
  unfold State.logicFlag; split <;> rfl
@[simp] theorem State.logicFlag_FB : s.logicFlag.FB = s.FB := by
  unfold State.logicFlag; split <;> rfl
@[simp] theorem State.logicFlag_status : s.logicFlag.status = s.status := by
  unfold State.logicFlag; split <;> rfl
@[simp] theorem State.logicFlag_rIn : s.logicFlag.rIn = s.rIn := by
  unfold State.logicFlag; split <;> rfl
@[simp] theorem State.logicFlag_draws : s.logicFlag.draws = s.draws := by
  unfold State.logicFlag; split <;> rfl

/-! ## writeRegs -/

@[simp] theorem State.writeRegs_cfg (first : Nat) (bs : List Byte) : (s.writeRegs first bs).cfg = s.cfg := by
  induction bs generalizing s first with
  | nil => rfl
  | cons v rest ih => simpa [State.writeRegs] using ih (s.writeV (BitVec.ofNat 4 first) v) (first + 1)
@[simp] theorem State.writeRegs_mem (first : Nat) (bs : List Byte) : (s.writeRegs first bs).mem = s.mem := by
  induction bs generalizing s first with
  | nil => rfl
  | cons v rest ih => simpa [State.writeRegs] using ih (s.writeV (BitVec.ofNat 4 first) v) (first + 1)
@[simp] theorem State.writeRegs_I (first : Nat) (bs : List Byte) : (s.writeRegs first bs).I = s.I := by
  induction bs generalizing s first with
  | nil => rfl
  | cons v rest ih => simpa [State.writeRegs] using ih (s.writeV (BitVec.ofNat 4 first) v) (first + 1)
@[simp] theorem State.writeRegs_pc (first : Nat) (bs : List Byte) : (s.writeRegs first bs).pc = s.pc := by
  induction bs generalizing s first with
  | nil => rfl
  | cons v rest ih => simpa [State.writeRegs] using ih (s.writeV (BitVec.ofNat 4 first) v) (first + 1)
@[simp] theorem State.writeRegs_S (first : Nat) (bs : List Byte) : (s.writeRegs first bs).S = s.S := by
  induction bs generalizing s first with
  | nil => rfl
  | cons v rest ih => simpa [State.writeRegs] using ih (s.writeV (BitVec.ofNat 4 first) v) (first + 1)
@[simp] theorem State.writeRegs_FB (first : Nat) (bs : List Byte) : (s.writeRegs first bs).FB = s.FB := by
  induction bs generalizing s first with
  | nil => rfl
  | cons v rest ih => simpa [State.writeRegs] using ih (s.writeV (BitVec.ofNat 4 first) v) (first + 1)
@[simp] theorem State.writeRegs_status (first : Nat) (bs : List Byte) : (s.writeRegs first bs).status = s.status := by
  induction bs generalizing s first with
  | nil => rfl
  | cons v rest ih => simpa [State.writeRegs] using ih (s.writeV (BitVec.ofNat 4 first) v) (first + 1)
@[simp] theorem State.writeRegs_rIn (first : Nat) (bs : List Byte) : (s.writeRegs first bs).rIn = s.rIn := by
  induction bs generalizing s first with
  | nil => rfl
  | cons v rest ih => simpa [State.writeRegs] using ih (s.writeV (BitVec.ofNat 4 first) v) (first + 1)
@[simp] theorem State.writeRegs_draws (first : Nat) (bs : List Byte) : (s.writeRegs first bs).draws = s.draws := by
  induction bs generalizing s first with
  | nil => rfl
  | cons v rest ih => simpa [State.writeRegs] using ih (s.writeV (BitVec.ofNat 4 first) v) (first + 1)

/-! ## Reads after the updates that do not touch what is read -/

@[simp] theorem State.writeV_readByte (x : Nibble) (v : Byte) (b : Nat) : (s.writeV x v).readByte b = s.readByte b := rfl
@[simp] theorem State.writeV_faulted (x : Nibble) (v : Byte) : (s.writeV x v).faulted = s.faulted := rfl
@[simp] theorem State.writeV_fetchWord (x : Nibble) (v : Byte) : (s.writeV x v).fetchWord = s.fetchWord := rfl
@[simp] theorem State.writeV_draw (x : Nibble) (v : Byte) : (s.writeV x v).draw = s.draw := rfl
@[simp] theorem State.writeVF_readByte (v : Byte) (b : Nat) : (s.writeVF v).readByte b = s.readByte b := rfl
@[simp] theorem State.writeVF_faulted (v : Byte) : (s.writeVF v).faulted = s.faulted := rfl
@[simp] theorem State.writeVF_fetchWord (v : Byte) : (s.writeVF v).fetchWord = s.fetchWord := rfl
@[simp] theorem State.writeVF_draw (v : Byte) : (s.writeVF v).draw = s.draw := rfl
@[simp] theorem State.writeI_readV (v : Word) (j : Nibble) : (s.writeI v).readV j = s.readV j := rfl
@[simp] theorem State.writeI_readByte (v : Word) (b : Nat) : (s.writeI v).readByte b = s.readByte b := rfl
@[simp] theorem State.writeI_faulted (v : Word) : (s.writeI v).faulted = s.faulted := rfl
@[simp] theorem State.writeI_fetchWord (v : Word) : (s.writeI v).fetchWord = s.fetchWord := rfl
@[simp] theorem State.writeI_draw (v : Word) : (s.writeI v).draw = s.draw := rfl
@[simp] theorem State.jump_readV (a : Word) (j : Nibble) : (s.jump a).readV j = s.readV j := rfl
@[simp] theorem State.jump_readByte (a : Word) (b : Nat) : (s.jump a).readByte b = s.readByte b := rfl
@[simp] theorem State.jump_faulted (a : Word) : (s.jump a).faulted = s.faulted := rfl
@[simp] theorem State.jump_draw (a : Word) : (s.jump a).draw = s.draw := rfl
@[simp] theorem State.advance_readV (j : Nibble) : (s.advance).readV j = s.readV j := rfl
@[simp] theorem State.advance_readByte (b : Nat) : (s.advance).readByte b = s.readByte b := rfl
@[simp] theorem State.advance_faulted : (s.advance).faulted = s.faulted := rfl
@[simp] theorem State.advance_draw : (s.advance).draw = s.draw := rfl
@[simp] theorem State.skip_readV (j : Nibble) : (s.skip).readV j = s.readV j := rfl
@[simp] theorem State.skip_readByte (b : Nat) : (s.skip).readByte b = s.readByte b := rfl
@[simp] theorem State.skip_faulted : (s.skip).faulted = s.faulted := rfl
@[simp] theorem State.skip_draw : (s.skip).draw = s.draw := rfl
@[simp] theorem State.push_readV (a : Word) (j : Nibble) : (s.push a).readV j = s.readV j := rfl
@[simp] theorem State.push_readByte (a : Word) (b : Nat) : (s.push a).readByte b = s.readByte b := rfl
@[simp] theorem State.push_faulted (a : Word) : (s.push a).faulted = s.faulted := rfl
@[simp] theorem State.push_fetchWord (a : Word) : (s.push a).fetchWord = s.fetchWord := rfl
@[simp] theorem State.push_draw (a : Word) : (s.push a).draw = s.draw := rfl
@[simp] theorem State.dropTop_readV (j : Nibble) : (s.dropTop).readV j = s.readV j := rfl
@[simp] theorem State.dropTop_readByte (b : Nat) : (s.dropTop).readByte b = s.readByte b := rfl
@[simp] theorem State.dropTop_faulted : (s.dropTop).faulted = s.faulted := rfl
@[simp] theorem State.dropTop_fetchWord : (s.dropTop).fetchWord = s.fetchWord := rfl
@[simp] theorem State.dropTop_draw : (s.dropTop).draw = s.draw := rfl
@[simp] theorem State.writeBytes_readV (a : Nat) (bs : List Byte) (j : Nibble) : (s.writeBytes a bs).readV j = s.readV j := rfl
@[simp] theorem State.writeBytes_faulted (a : Nat) (bs : List Byte) : (s.writeBytes a bs).faulted = s.faulted := rfl
@[simp] theorem State.writeBytes_draw (a : Nat) (bs : List Byte) : (s.writeBytes a bs).draw = s.draw := rfl
@[simp] theorem State.writeFB_readV (fb : Framebuffer) (j : Nibble) : (s.writeFB fb).readV j = s.readV j := rfl
@[simp] theorem State.writeFB_readByte (fb : Framebuffer) (b : Nat) : (s.writeFB fb).readByte b = s.readByte b := rfl
@[simp] theorem State.writeFB_faulted (fb : Framebuffer) : (s.writeFB fb).faulted = s.faulted := rfl
@[simp] theorem State.writeFB_fetchWord (fb : Framebuffer) : (s.writeFB fb).fetchWord = s.fetchWord := rfl
@[simp] theorem State.writeFB_draw (fb : Framebuffer) : (s.writeFB fb).draw = s.draw := rfl
@[simp] theorem State.raise_readV (k : FaultKind) (o a : Word) (j : Nibble) : (s.raise k o a).readV j = s.readV j := rfl
@[simp] theorem State.raise_readByte (k : FaultKind) (o a : Word) (b : Nat) : (s.raise k o a).readByte b = s.readByte b := rfl
@[simp] theorem State.raise_fetchWord (k : FaultKind) (o a : Word) : (s.raise k o a).fetchWord = s.fetchWord := rfl
@[simp] theorem State.raise_draw (k : FaultKind) (o a : Word) : (s.raise k o a).draw = s.draw := rfl
@[simp] theorem State.present_readV (r : Option Byte) (j : Nibble) : (s.present r).readV j = s.readV j := rfl
@[simp] theorem State.present_readByte (r : Option Byte) (b : Nat) : (s.present r).readByte b = s.readByte b := rfl
@[simp] theorem State.present_faulted (r : Option Byte) : (s.present r).faulted = s.faulted := rfl
@[simp] theorem State.present_fetchWord (r : Option Byte) : (s.present r).fetchWord = s.fetchWord := rfl
@[simp] theorem State.writeRegs_readByte (first : Nat) (bs : List Byte) (b : Nat) :
    (s.writeRegs first bs).readByte b = s.readByte b := by
  simp [State.readByte]
@[simp] theorem State.logicFlag_readByte (b : Nat) : s.logicFlag.readByte b = s.readByte b := by
  simp [State.readByte]

/-! ## Register reads after register writes -/

/-- A register read after a register write (R22: no aliases, no hardwired register). -/
@[simp] theorem State.writeV_readV (x j : Nibble) (v : Byte) :
    (s.writeV x v).readV j = if j = x then v else s.readV j := by
  by_cases h : j = x
  · subst h; simp [State.readV, State.writeV]
  · have hx : x.toNat ≠ j.toNat := fun e => h (BitVec.eq_of_toNat_eq e.symm)
    simp [State.readV, State.writeV, h, Vector.getElem_set_ne, hx]

@[simp] theorem State.writeVF_readV (j : Nibble) (v : Byte) :
    (s.writeVF v).readV j = if j = 0xF then v else s.readV j :=
  State.writeV_readV s 0xF j v

@[simp] theorem State.logicFlag_readV (j : Nibble) :
    s.logicFlag.readV j = if s.cfg.logicResetsVF = true ∧ j = 0xF then 0 else s.readV j := by
  unfold State.logicFlag
  by_cases h : s.cfg.logicResetsVF = true <;> simp [h]

/-- `writeRegs` from register `first`: the registers it covers get the list's bytes, the others keep
theirs. -/
theorem State.writeRegs_readV (first : Nat) (bs : List Byte) (hb : first + bs.length ≤ 16) (j : Nibble) :
    (s.writeRegs first bs).readV j =
      if first ≤ j.toNat ∧ j.toNat < first + bs.length then bs.getD (j.toNat - first) 0 else s.readV j := by
  induction bs generalizing s first with
  | nil => simp only [State.writeRegs, List.length_nil]; rw [if_neg (by omega)]
  | cons v rest ih =>
    simp only [List.length_cons] at hb
    simp only [State.writeRegs]
    rw [ih _ _ (by omega), State.writeV_readV]
    have hj : j = BitVec.ofNat 4 first ↔ j.toNat = first := by
      rw [← BitVec.toNat_inj, BitVec.toNat_ofNat, Nat.mod_eq_of_lt (by omega)]
    have hlt := j.isLt
    by_cases h1 : j.toNat = first
    · rw [if_neg (by omega), if_pos (hj.2 h1), if_pos (by simp only [List.length_cons]; omega)]
      simp [h1]
    · by_cases h2 : first + 1 ≤ j.toNat ∧ j.toNat < first + 1 + rest.length
      · rw [if_pos h2, if_pos (by simp only [List.length_cons]; omega)]
        obtain ⟨k, hk⟩ : ∃ k, j.toNat - first = k + 1 := ⟨j.toNat - first - 1, by omega⟩
        rw [hk, List.getD_cons_succ]
        congr 1; omega
      · rw [if_neg h2, if_neg (fun e => h1 (hj.1 e)), if_neg (by simp only [List.length_cons]; omega)]

end Sys2Proof.Machine
end

