-- ==== Sys2Proof/Laws/Memory.lean ====
section
/-! SUPPORT. The laws of memory: a read after a write, and that every operation keeps the canonical form. -/

namespace Sys2Proof.Machine

/-! ## Reads -/

/-- Below every listed address nothing is listed. -/
theorem Memory.read_eq_zero_of_lt (m : Memory) (a : Nat) (h : ∀ c ∈ m, a < c.1) : m.read a = 0 := by
  induction m with
  | nil => rfl
  | cons c rest ih =>
    obtain ⟨b, v⟩ := c
    have hb : a < b := h (b, v) (by simp)
    rw [Memory.read, if_neg (by omega)]
    exact ih fun d hd => h d (by simp [hd])

/-- Memory that has nothing above 0xFFF reads as 0x00 there. -/
theorem Memory.read_out_of_range (m : Memory) (hm : m.wf) (a : Nat) (ha : 0xFFF < a) : m.read a = 0 := by
  obtain ⟨-, hr⟩ := hm
  induction m with
  | nil => rfl
  | cons c rest ih =>
    obtain ⟨b, v⟩ := c
    have hb := (hr (b, v) (by simp)).1
    simp only at hb
    rw [Memory.read, if_neg (by omega)]
    exact ih fun d hd => hr d (by simp [hd])

/-! ## The canonical form -/

theorem Memory.wf_nil : Memory.wf [] := by simp [Memory.wf]

/-- Every address that `put` lists was listed, or is the one written. -/
theorem Memory.mem_put (m : Memory) (a : Nat) (v : Byte) (c : Host.Cell) (h : c ∈ m.put a v) :
    c ∈ m ∨ (c = (a, v) ∧ v ≠ 0) := by
  induction m with
  | nil =>
    simp only [Memory.put] at h
    split at h
    · simp at h
    · right; exact ⟨by simpa using h, ‹_›⟩
  | cons d rest ih =>
    obtain ⟨b, w⟩ := d
    simp only [Memory.put] at h
    split at h
    · rcases List.mem_cons.1 h with h | h
      · left; simp [h]
      · rcases ih h with h | h
        · left; simp [h]
        · right; exact h
    · split at h
      · split at h
        · left; simp [h]
        · rcases List.mem_cons.1 h with h | h
          · right; exact ⟨h, ‹_›⟩
          · left; simp [h]
      · split at h
        · left; exact h
        · rcases List.mem_cons.1 h with h | h
          · right; exact ⟨h, ‹_›⟩
          · left; exact h

theorem Memory.put_wf (m : Memory) (hm : m.wf) (a : Nat) (v : Byte) (ha : a ≤ 0xFFF) :
    (m.put a v).wf := by
  obtain ⟨hs, hr⟩ := hm
  refine ⟨?_, ?_⟩
  · induction m with
    | nil => simp only [Memory.put]; split <;> simp
    | cons d rest ih =>
      obtain ⟨b, w⟩ := d
      obtain ⟨h1, h2⟩ := List.pairwise_cons.1 hs
      have ih' := ih h2 fun c hc => hr c (by simp [hc])
      simp only [Memory.put]
      split
      · refine List.pairwise_cons.2 ⟨fun c hc => ?_, ih'⟩
        rcases Memory.mem_put rest a v c hc with h | ⟨h, -⟩
        · exact h1 c h
        · subst h; assumption
      · split
        · split
          · exact h2
          · refine List.pairwise_cons.2 ⟨fun c hc => ?_, h2⟩
            have := h1 c hc
            simp only at this ⊢
            omega
        · split
          · exact hs
          · refine List.pairwise_cons.2 ⟨fun c hc => ?_, hs⟩
            rcases List.mem_cons.1 hc with h | h
            · subst h; simp only; omega
            · have := h1 c h
              simp only at this ⊢
              omega
  · intro c hc
    rcases Memory.mem_put m a v c hc with h | ⟨h, hv⟩
    · exact hr c h
    · subst h; exact ⟨ha, hv⟩

theorem Memory.write_wf (m : Memory) (hm : m.wf) (a : Nat) (v : Byte) : (m.write a v).wf := by
  unfold Memory.write
  split
  · exact Memory.put_wf m hm a v ‹_›
  · exact hm

theorem Memory.writeBytes_wf (m : Memory) (hm : m.wf) (a : Nat) (bs : List Byte) :
    (m.writeBytes a bs).wf := by
  induction bs generalizing m a with
  | nil => exact hm
  | cons v rest ih => exact ih _ (Memory.write_wf m hm a v) _

/-! ## Reads after writes -/

theorem Memory.read_put (m : Memory) (hm : m.wf) (a b : Nat) (v : Byte) :
    (m.put a v).read b = if b = a then v else m.read b := by
  obtain ⟨hs, -⟩ := hm
  induction m with
  | nil =>
    simp only [Memory.put]
    split
    · subst_vars; simp [Memory.read]
    · simp only [Memory.read, eq_comm]
  | cons d rest ih =>
    obtain ⟨e, w⟩ := d
    obtain ⟨h1, h2⟩ := List.pairwise_cons.1 hs
    have hlow : ∀ q, q ≤ e → Memory.read rest q = 0 := fun q hq =>
      Memory.read_eq_zero_of_lt rest q fun c hc => Nat.lt_of_le_of_lt hq (h1 c hc)
    simp only [Memory.put]
    split
    · simp only [Memory.read, ih h2]
      split
      · rw [if_neg (by omega)]
      · rfl
    · split
      · have he : e = a := ‹_›
        subst he
        split
        · by_cases hb : b = e
          · subst hb
            rw [if_pos rfl, hlow b (Nat.le_refl b)]
            exact (‹v = 0›).symm
          · rw [if_neg hb, Memory.read, if_neg (fun h => hb h.symm)]
        · by_cases hb : b = e
          · simp [hb, Memory.read]
          · simp [hb, Memory.read, Ne.symm hb]
      · split
        · by_cases hb : b = a
          · subst hb
            rw [if_pos rfl, Memory.read, if_neg (by omega), hlow b (by omega)]
            exact (‹v = 0›).symm
          · rw [if_neg hb]
        · by_cases hb : b = a
          · simp [hb, Memory.read]
          · simp [hb, Memory.read, Ne.symm hb]

/-- A byte read after a byte write inside 0x000-0xFFF. -/
theorem Memory.read_write (m : Memory) (hm : m.wf) (a b : Nat) (v : Byte) (ha : a ≤ 0xFFF) :
    (m.write a v).read b = if b = a then v else m.read b := by
  rw [Memory.write, if_pos ha, Memory.read_put m hm]

/-- A byte read after a block write inside 0x000-0xFFF: the written byte inside the block, the old byte
outside it. -/
theorem Memory.read_writeBytes (m : Memory) (hm : m.wf) (a b : Nat) (bs : List Byte)
    (ha : a + bs.length ≤ 0x1000) :
    (m.writeBytes a bs).read b =
      if a ≤ b ∧ b < a + bs.length then bs.getD (b - a) 0 else m.read b := by
  induction bs generalizing m a with
  | nil => simp only [Memory.writeBytes, List.length_nil]; rw [if_neg (by omega)]
  | cons v rest ih =>
    simp only [List.length_cons] at ha
    simp only [Memory.writeBytes]
    rw [ih _ (Memory.write_wf m hm a v) _ (by omega), Memory.read_write m hm a b v (by omega)]
    by_cases h1 : b = a
    · rw [if_neg (by omega), if_pos h1, if_pos (by simp only [List.length_cons]; omega)]
      simp [h1]
    · by_cases h2 : a + 1 ≤ b ∧ b < a + 1 + rest.length
      · rw [if_pos h2, if_pos (by simp only [List.length_cons]; omega)]
        obtain ⟨k, hk⟩ : ∃ k, b - a = k + 1 := ⟨b - a - 1, by omega⟩
        rw [hk, List.getD_cons_succ]
        congr 1; omega
      · rw [if_neg h2, if_neg h1, if_neg (by simp only [List.length_cons]; omega)]

end Sys2Proof.Machine
end

