-- ==== Sys2Proof/Laws/Ops.lean ====
section
/-! SUPPORT. One lemma per shared operation that says what it does: the fault latch, the bounds check, the
framebuffer, byte and word reads, RESET and LOAD. -/

namespace Sys2Proof.Machine

/-! ## The fault latch (R36, R202) -/

theorem statusWord_toNat (code : BitVec 3) (opcode pc addr : Word) :
    (statusWord code opcode pc addr).toNat =
      addr.toNat * 2 ^ 48 + pc.toNat * 2 ^ 32 + opcode.toNat * 2 ^ 16 + code.toNat * 2 + 1 := by
  have h := toNat_concat (addr ++ pc ++ opcode ++ 0#12 ++ code) 1#1
  rw [toNat_concat (addr ++ pc ++ opcode ++ 0#12) code, toNat_concat (addr ++ pc ++ opcode) 0#12,
    toNat_concat (addr ++ pc) opcode, toNat_concat addr pc] at h
  exact h.trans (by simp only [BitVec.toNat_ofNat]; omega)

/-- The fields of a fault record read back (R36, R202). -/
theorem State.raise_latched (s : State) (k : FaultKind) (opcode addr : Word) :
    (s.raise k opcode addr).latched k opcode s.pc addr := by
  have hw := statusWord_toNat k.code opcode s.pc addr
  have h1 := k.code.isLt
  have h2 := opcode.isLt
  have h3 := s.pc.isLt
  have h4 := addr.isLt
  refine ⟨?_, ?_, ?_, ?_, ?_, ?_⟩
  · rw [State.faulted, State.raise_status, BitVec.getLsbD, hw, Nat.testBit_zero]
    simp only [decide_eq_true_eq]; omega
  all_goals
    apply BitVec.eq_of_toNat_eq
    simp only [State.faultCode, State.statusReserved, State.faultOpcode, State.faultPc, State.faultAddr,
      State.raise_status, BitVec.extractLsb'_toNat, Nat.shiftRight_eq_div_pow, hw,
      show (0 : BitVec 12).toNat = 0 from rfl]
    omega

/-- Fault entry: the record is latched and nothing else changes (R202, R203). -/
theorem State.raise_entersFault (s : State) (k : FaultKind) (opcode addr : Word) :
    s.entersFault (s.raise k opcode addr) k opcode addr :=
  ⟨s.raise_latched k opcode addr, ⟨rfl, rfl, rfl, rfl, rfl, rfl, rfl⟩, rfl, rfl⟩

@[simp] theorem State.raise_faulted (s : State) (k : FaultKind) (opcode addr : Word) :
    (s.raise k opcode addr).faulted = true :=
  (s.raise_latched k opcode addr).1

/-! ## Bounds (R55) -/

theorem outOfBounds_iff (a : Word) (count : Nat) :
    outOfBounds a count = true ↔ 0 < count ∧ 0x1000 < a.toNat + count := by
  simp only [outOfBounds, Bool.and_eq_true, decide_eq_true_eq]; omega

theorem firstBadAddress_toNat (a : Word) : (firstBadAddress a).toNat = max a.toNat 0x1000 := by
  unfold firstBadAddress
  split
  · rw [Nat.max_eq_right ‹_›]; rfl
  · rw [Nat.max_eq_left (by omega)]

/-! ## Reads (R14, R52) -/

@[simp] theorem State.readBytes_length (s : State) (a count : Nat) : (s.readBytes a count).length = count := by
  simp [State.readBytes]

theorem State.readBytes_getD (s : State) (a count k : Nat) (h : k < count) :
    (s.readBytes a count).getD k 0 = s.readByte (a + k) := by
  simp [State.readBytes, List.getD, h]

@[simp] theorem State.readRegs_length (s : State) (x : Nibble) : (s.readRegs x).length = x.toNat + 1 := by
  simp [State.readRegs]

theorem State.readRegs_getD (s : State) (x : Nibble) (k : Nat) (h : k ≤ x.toNat) :
    (s.readRegs x).getD k 0 = s.readV (BitVec.ofNat 4 k) := by
  simp [State.readRegs, List.getD, Nat.lt_succ_of_le h]

/-- A byte read after a block write inside 0x000-0xFFF. -/
theorem State.writeBytes_readByte (s : State) (hm : s.mem.wf) (a b : Nat) (bs : List Byte)
    (ha : a + bs.length ≤ 0x1000) :
    (s.writeBytes a bs).readByte b =
      if a ≤ b ∧ b < a + bs.length then bs.getD (b - a) 0 else s.readByte b :=
  Memory.read_writeBytes s.mem hm a b bs ha

/-- The word placed at pc is the word fetched next, wherever both bytes exist (R52). -/
theorem State.placeWord_fetchWord (s : State) (hm : s.mem.wf) (hp : s.pc.toNat ≤ 0xFFE) (w : Word) :
    (s.placeWord w).fetchWord = w := by
  have h := s.writeBytes_readByte hm s.pc.toNat
  have h0 := h s.pc.toNat [highByte w, lowByte w] (by simp; omega)
  have h1 := h (s.pc.toNat + 1) [highByte w, lowByte w] (by simp; omega)
  rw [if_pos (by simp)] at h0
  rw [if_pos (by simp)] at h1
  have e : (s.placeWord w).fetchWord =
      wordOfBytes ((s.writeBytes s.pc.toNat [highByte w, lowByte w]).readByte s.pc.toNat)
        ((s.writeBytes s.pc.toNat [highByte w, lowByte w]).readByte (s.pc.toNat + 1)) := rfl
  rw [e, h0, h1]
  simpa using wordOfBytes_high_low w

/-! ## Framebuffer (R33, R113, R115) -/

@[simp] theorem Framebuffer.clear_cell (x y : Nat) : Framebuffer.cell Framebuffer.clear x y = false := by
  simp [Framebuffer.cell, Framebuffer.clear]

/-- One cell changes, the one that the coordinates wrap to (R113). -/
theorem Framebuffer.flip_cell (fb : Framebuffer) (x y u v : Nat) :
    Framebuffer.cell (Framebuffer.flip fb x y) u v =
      (Framebuffer.cell fb u v ^^ decide (u % 64 = x % 64 ∧ v % 32 = y % 32)) := by
  by_cases hv : v % 32 = y % 32
  · have hx : x % 64 < 64 := Nat.mod_lt _ (by decide)
    simp [Framebuffer.cell, Framebuffer.flip, hv, BitVec.getLsbD_twoPow, hx, eq_comm]
  · simp [Framebuffer.cell, Framebuffer.flip, hv, Vector.getElem_set_ne, Ne.symm hv]

/-- One column of a sprite row: the cell it wraps to is inverted when its bit is 1 (R112 to R114). -/
theorem drawColumn_cell (b : Byte) (x y : Nat) (p : Framebuffer × Bool) (col u v : Nat) :
    Framebuffer.cell (drawColumn b x y p col).1 u v =
      (Framebuffer.cell p.1 u v ^^
        decide (b.getLsbD (7 - col) = true ∧ u % 64 = (x + col) % 64 ∧ v % 32 = y % 32)) := by
  unfold drawColumn plot
  cases h : b.getLsbD (7 - col) <;> simp [Framebuffer.flip_cell]

/-- One column of a sprite row: a collision is recorded when its 1-bit lands on a cell that is 1 (R115). -/
theorem drawColumn_hit (b : Byte) (x y : Nat) (p : Framebuffer × Bool) (col : Nat) :
    (drawColumn b x y p col).2 =
      (p.2 || (b.getLsbD (7 - col) && Framebuffer.cell p.1 (x + col) y)) := by
  unfold drawColumn plot
  cases h : b.getLsbD (7 - col) <;> simp

/-- Two framebuffers with the same 2048 cells are equal. -/
theorem Framebuffer.ext_cells (f g : Framebuffer)
    (h : ∀ x y, x < 64 → y < 32 → Framebuffer.cell f x y = Framebuffer.cell g x y) : f = g := by
  apply Vector.ext
  intro y hy
  apply BitVec.eq_of_getLsbD_eq
  intro x hx
  simpa [Framebuffer.cell, Nat.mod_eq_of_lt hx, Nat.mod_eq_of_lt hy] using h x y hx hy

/-! ## RESET and LOAD (R61 to R63, R230) -/

/-- What LOAD can do. -/
theorem State.doLoad_cases (s : State) (bytes : List Byte) :
    (s.faulted = true ∧ s.doLoad bytes = s) ∨
    (s.faulted = false ∧ loadMax < bytes.length ∧ s.doLoad bytes = s.raise .outOfBoundsLoad 0 0x1000) ∨
    (s.faulted = false ∧ bytes.length ≤ loadMax ∧ s.doLoad bytes = s.writeBytes loadBase bytes) := by
  unfold State.doLoad
  by_cases hf : s.faulted = true
  · simp [hf]
  · by_cases hl : loadMax < bytes.length
    · simp [hf, hl]
    · simp [hf, hl, Nat.le_of_not_lt hl]

end Sys2Proof.Machine
end

