-- ==== Sys2Proof/Laws/PerInstr.lean ====
section
/-! SUPPORT. Facts about every instruction as syntax, one lemma per constructor. The family `TableRow`: an
instruction of an instance has a row of the instance's opcode map (spec/30_encoding.md R77) under its own
mnemonic and profile, and its encoded word matches that row. -/

namespace Sys2Proof.Laws.TableRow

/-- The encoded word of an instruction of `c` matches the row of R77 that has the instruction's name. -/
def Statement (i : Instr) : Prop :=
  ∀ c : Config, i.wellFormed c = true →
    ∃ r ∈ opcodeMap c, r.mnemonic = i.mnemonic ∧ r.extendedOnly = i.extendedOnly ∧
      r.matchesWord (encode i) = true

/-- A row with a fixed mask and value, given its place in the map. -/
theorem of_row (i : Instr) (r : OpcodeRow) (hn : r.mnemonic = i.mnemonic)
    (hp : r.extendedOnly = i.extendedOnly) (hw : r.matchesWord (encode i) = true)
    (hmem : r ∈ lowRows ++ aluRows ++ highRows) : Statement i := by
  intro c hc
  refine ⟨r, ?_, hn, hp, hw⟩
  have hprof : i.inProfile c = true := by
    simp only [Instr.wellFormed, Bool.and_eq_true] at hc; exact hc.1
  simp only [opcodeMap, List.mem_filter, List.append_assoc, List.mem_append] at hmem ⊢
  exact ⟨Or.inr hmem, by simpa [Instr.inProfile, hp] using hprof⟩

/-- The 0x0 group: exact words under `EXACT`, masked ones under `LOW_NIBBLE`. -/
theorem cls (mid : Byte) : Statement (.cls mid) := by
  rintro ⟨p, z, d, sh, l, inc⟩ hc
  cases z with
  | exact =>
    have hm : mid = 0x0E := by simpa [Instr.wellFormed, Instr.inProfile, Instr.extendedOnly, Instr.middleOk] using hc
    subst hm
    exact ⟨⟨"CLS", 0xFFFF, 0x00E0, false⟩, by simp [opcodeMap, zeroGroupRows], rfl, rfl, by decide⟩
  | lowNibble =>
    exact ⟨⟨"CLS", 0xF00F, 0x0000, false⟩, by simp [opcodeMap, zeroGroupRows], rfl, rfl, by
      clear hc; revert mid; decide⟩

theorem ret (mid : Byte) : Statement (.ret mid) := by
  rintro ⟨p, z, d, sh, l, inc⟩ hc
  cases z with
  | exact =>
    have hm : mid = 0x0E := by simpa [Instr.wellFormed, Instr.inProfile, Instr.extendedOnly, Instr.middleOk] using hc
    subst hm
    exact ⟨⟨"RET", 0xFFFF, 0x00EE, false⟩, by simp [opcodeMap, zeroGroupRows], rfl, rfl, by decide⟩
  | lowNibble =>
    exact ⟨⟨"RET", 0xF00F, 0x000E, false⟩, by simp [opcodeMap, zeroGroupRows], rfl, rfl, by
      clear hc; revert mid; decide⟩

theorem jp (nnn : Addr12) : Statement (.jp nnn) :=
  of_row _ ⟨"JP_addr", 0xF000, 0x1000, false⟩ rfl rfl (by revert nnn; decide) (by decide)
theorem call (nnn : Addr12) : Statement (.call nnn) :=
  of_row _ ⟨"CALL_addr", 0xF000, 0x2000, true⟩ rfl rfl (by revert nnn; decide) (by decide)
theorem seByte (x : Nibble) (kk : Byte) : Statement (.seByte x kk) :=
  of_row _ ⟨"SE_Vx__byte", 0xF000, 0x3000, false⟩ rfl rfl (by revert x kk; decide) (by decide)
theorem ldByte (x : Nibble) (kk : Byte) : Statement (.ldByte x kk) :=
  of_row _ ⟨"LD_Vx__byte", 0xF000, 0x6000, false⟩ rfl rfl (by revert x kk; decide) (by decide)
theorem addByte (x : Nibble) (kk : Byte) : Statement (.addByte x kk) :=
  of_row _ ⟨"ADD_Vx__byte", 0xF000, 0x7000, false⟩ rfl rfl (by revert x kk; decide) (by decide)
theorem orReg (x y : Nibble) : Statement (.orReg x y) :=
  of_row _ ⟨"OR_Vx__Vy", 0xF00F, 0x8001, true⟩ rfl rfl (by revert x y; decide) (by decide)
theorem andReg (x y : Nibble) : Statement (.andReg x y) :=
  of_row _ ⟨"AND_Vx__Vy", 0xF00F, 0x8002, true⟩ rfl rfl (by revert x y; decide) (by decide)
theorem xorReg (x y : Nibble) : Statement (.xorReg x y) :=
  of_row _ ⟨"XOR_Vx__Vy", 0xF00F, 0x8003, true⟩ rfl rfl (by revert x y; decide) (by decide)
theorem addReg (x y : Nibble) : Statement (.addReg x y) :=
  of_row _ ⟨"ADD_Vx__Vy", 0xF00F, 0x8004, true⟩ rfl rfl (by revert x y; decide) (by decide)
theorem shr (x y : Nibble) : Statement (.shr x y) :=
  of_row _ ⟨"SHR_Vx__Vy", 0xF00F, 0x8006, true⟩ rfl rfl (by revert x y; decide) (by decide)
theorem shl (x y : Nibble) : Statement (.shl x y) :=
  of_row _ ⟨"SHL_Vx__Vy", 0xF00F, 0x800E, true⟩ rfl rfl (by revert x y; decide) (by decide)
theorem ldI (nnn : Addr12) : Statement (.ldI nnn) :=
  of_row _ ⟨"LD_I__addr", 0xF000, 0xA000, false⟩ rfl rfl (by revert nnn; decide) (by decide)
theorem rnd (x : Nibble) (kk : Byte) : Statement (.rnd x kk) :=
  of_row _ ⟨"RND_Vx__byte", 0xF000, 0xC000, false⟩ rfl rfl (by revert x kk; decide) (by decide)
theorem drw (x y n : Nibble) : Statement (.drw x y n) :=
  of_row _ ⟨"DRW_Vx__Vy__n", 0xF000, 0xD000, false⟩ rfl rfl (by revert x y n; decide) (by decide)
theorem storeRegs (x : Nibble) : Statement (.storeRegs x) :=
  of_row _ ⟨"LD__I___Vx", 0xF0FF, 0xF055, true⟩ rfl rfl (by revert x; decide) (by decide)
theorem loadRegs (x : Nibble) : Statement (.loadRegs x) :=
  of_row _ ⟨"LD_Vx___I", 0xF0FF, 0xF065, true⟩ rfl rfl (by revert x; decide) (by decide)

end Sys2Proof.Laws.TableRow
end

