-- ==== Sys2Proof/Laws/Step.lean ====
section
/-! SUPPORT. What a step can do, said once: one inversion lemma for the step and one for each meaning with a
check of its own. -/

namespace Sys2Proof.Machine

/-! ## Meanings with a check of their own (R96) -/

theorem execRet_cases (mid : Byte) (s : State) :
    (s.S = [] ∧ execRet mid s = .next (s.raise .stackUnderflow (encode (.ret mid)) 0)) ∨
    (∃ top rest, s.S = top :: rest ∧ execRet mid s = .next (s.dropTop.jump top)) := by
  unfold execRet
  cases h : s.S with
  | nil => exact .inl ⟨rfl, rfl⟩
  | cons top rest => exact .inr ⟨top, rest, rfl, rfl⟩

theorem execCall_cases (nnn : Addr12) (s : State) :
    (StackDepth.full s.cfg.stackDepth s.S.length = true ∧
      execCall nnn s = .next (s.raise .stackOverflow (encode (.call nnn)) 0)) ∨
    (StackDepth.full s.cfg.stackDepth s.S.length = false ∧
      execCall nnn s = .next ((s.push (s.pc + 2)).jump (addressOperand nnn))) := by
  unfold execCall
  cases h : StackDepth.full s.cfg.stackDepth s.S.length <;> simp

theorem execDrw_cases (x y n : Nibble) (s : State) :
    (outOfBounds s.I n.toNat = true ∧
      execDrw x y n s = .next (s.raise .outOfBoundsAccess (encode (.drw x y n)) (firstBadAddress s.I))) ∨
    (outOfBounds s.I n.toNat = false ∧ ∃ fb hit,
      drawSprite (s.spriteBytes n) (s.readV x) (s.readV y) s.FB = (fb, hit) ∧
      execDrw x y n s = .next ((s.writeFB fb).writeVF (flagByte hit)).advance) := by
  unfold execDrw
  cases h : outOfBounds s.I n.toNat with
  | true => exact .inl ⟨rfl, by simp⟩
  | false =>
    exact .inr ⟨rfl, (drawSprite (s.spriteBytes n) (s.readV x) (s.readV y) s.FB).1,
      (drawSprite (s.spriteBytes n) (s.readV x) (s.readV y) s.FB).2, rfl, by simp⟩

theorem execStoreRegs_cases (x : Nibble) (s : State) :
    (outOfBounds s.I (blockLength x) = true ∧
      execStoreRegs x s =
        .next (s.raise .outOfBoundsAccess (encode (.storeRegs x)) (firstBadAddress s.I))) ∨
    (outOfBounds s.I (blockLength x) = false ∧
      execStoreRegs x s =
        .next ((s.writeBytes s.I.toNat (s.readRegs x)).writeI (s.blockEndI x)).advance) := by
  unfold execStoreRegs
  cases h : outOfBounds s.I (blockLength x) <;> simp

theorem execLoadRegs_cases (x : Nibble) (s : State) :
    (outOfBounds s.I (blockLength x) = true ∧
      execLoadRegs x s =
        .next (s.raise .outOfBoundsAccess (encode (.loadRegs x)) (firstBadAddress s.I))) ∨
    (outOfBounds s.I (blockLength x) = false ∧
      execLoadRegs x s =
        .next ((s.writeRegs 0 (s.readBytes s.I.toNat (blockLength x))).writeI (s.blockEndI x)).advance) := by
  unfold execLoadRegs
  cases h : outOfBounds s.I (blockLength x) <;> simp

theorem execSeByte_cases (x : Nibble) (kk : Byte) (s : State) :
    (s.readV x = kk ∧ execSeByte x kk s = .next s.skip) ∨
    (s.readV x ≠ kk ∧ execSeByte x kk s = .next s.advance) := by
  unfold execSeByte
  by_cases h : s.readV x = kk <;> simp [h]

/-! ## The step (R91, R92, R96) -/

/-- What a STEP can do, in the check order of R96: nothing on a FAULTED core, a fetch fault, a decode fault,
or the handler of the decoded instruction on the state with the input presented. -/
theorem stepWith_cases (r : Option Byte) (s : State) :
    (s.faulted = true ∧ stepWith r s = .next s) ∨
    (s.faulted = false ∧ 0xFFF ≤ s.pc.toNat ∧
      stepWith r s = .next ((s.present r).raise .outOfBoundsAccess 0 (firstBadAddress s.pc))) ∨
    (s.faulted = false ∧ s.pc.toNat ≤ 0xFFE ∧ ∃ w, decode s.cfg s.fetchWord = .unsupportedOpcode w ∧
      stepWith r s = .next ((s.present r).raise .unsupportedOpcode w 0)) ∨
    (s.faulted = false ∧ s.pc.toNat ≤ 0xFFE ∧ ∃ i, decode s.cfg s.fetchWord = .instr i ∧
      stepWith r s = exec i (s.present r)) := by
  unfold stepWith runStep
  by_cases hf : s.faulted = true
  · simp [hf]
  · by_cases hp : 0xFFF < s.pc.toNat + 1
    · have : 0xFFF ≤ s.pc.toNat := by omega
      simp [hf, this]
    · have h1 : s.pc.toNat ≤ 0xFFE := by omega
      have h2 : ¬ 0xFFF ≤ s.pc.toNat := by omega
      cases hd : decode s.cfg s.fetchWord with
      | instr i => simp [hf, h1, h2, hd]
      | unsupportedOpcode w => simp [hf, h1, h2, hd]

end Sys2Proof.Machine
end

