-- ==== Sys2Proof/Tests/Slice0.lean ====
section
/-! SUPPORT. The model's own tests. Expected results are from spec/95_test_vectors.md (the vector's id is in
each comment), from the encodings of spec/30_encoding.md, or from the rule named; and one witness for the
hypotheses of each statement that has some. -/

namespace Sys2Proof.Tests

open Sys2Proof Sys2Proof.Machine

/-! ## Helpers -/

/-- The default build with the profile `EXTENDED`. -/
def ext : Config := Config.built.asExtended

/-- The default build with `LOW_NIBBLE`, and with both. -/
def low : Config := { Config.built with zeroGroupDecode := .lowNibble }

/-- Reset, with two bytes of code at the reset pc. -/
def code (c : Config) (hi lo : Byte) : State := (State.resetWith c).writeBytes 0x200 [hi, lo]

/-- The outcome is a next state with the property. -/
def nextHas (o : Host.Outcome State Fault Refusal) (p : State → Bool) : Bool :=
  match o with
  | .next t => p t
  | .fault _ => false
  | .refused _ => false

/-- The state after STEP(r), or the same state. -/
def after (r : Byte) (s : State) : State :=
  match stepWith (some r) s with
  | .next t => t
  | .fault _ => s
  | .refused _ => s

/-! ## WellFormed refuses an ill-formed term, for each check -/

theorem test_wellFormed_profile : (Instr.call 0x206).wellFormed Config.built = false := by decide
theorem test_wellFormed_middle_cls : (Instr.cls 0x12).wellFormed ext = false := by decide
theorem test_wellFormed_middle_ret : (Instr.ret 0x12).wellFormed ext = false := by decide
theorem test_wellFormed_middle_low : (Instr.cls 0x12).wellFormed low = true := by decide

/-! ## Every constructor's decoding, by a word written out from the formats of R72 and R77 -/

theorem test_decode_cls : decode ext 0b0000000011100000 = .instr (.cls 0x0E) := by decide
theorem test_decode_ret : decode ext 0b0000000011101110 = .instr (.ret 0x0E) := by decide
theorem test_decode_jp : decode ext 0b0001001001010000 = .instr (.jp 0x250) := by decide
theorem test_decode_call : decode ext 0b0010001000000110 = .instr (.call 0x206) := by decide
theorem test_decode_seByte : decode ext 0b0011001100000111 = .instr (.seByte 3 0x07) := by decide
theorem test_decode_ldByte : decode ext 0b0110000000000101 = .instr (.ldByte 0 0x05) := by decide
theorem test_decode_addByte : decode ext 0b0111001000010000 = .instr (.addByte 2 0x10) := by decide
theorem test_decode_orReg : decode ext 0b1000101001110001 = .instr (.orReg 0xA 7) := by decide
theorem test_decode_andReg : decode ext 0b1000101001110010 = .instr (.andReg 0xA 7) := by decide
theorem test_decode_xorReg : decode ext 0b1000101001110011 = .instr (.xorReg 0xA 7) := by decide
theorem test_decode_addReg : decode ext 0b1000101001110100 = .instr (.addReg 0xA 7) := by decide
theorem test_decode_shr : decode ext 0b1000101001110110 = .instr (.shr 0xA 7) := by decide
theorem test_decode_shl : decode ext 0b1000101001111110 = .instr (.shl 0xA 7) := by decide
theorem test_decode_ldI : decode ext 0b1010000100100011 = .instr (.ldI 0x123) := by decide
theorem test_decode_rnd : decode ext 0b1100010100001111 = .instr (.rnd 5 0x0F) := by decide
theorem test_decode_drw : decode ext 0b1101001101011111 = .instr (.drw 3 5 0xF) := by decide
theorem test_decode_storeRegs : decode ext 0b1111110001010101 = .instr (.storeRegs 0xC) := by decide
theorem test_decode_loadRegs : decode ext 0b1111110001100101 = .instr (.loadRegs 0xC) := by decide

/-- F3, F4, F5. -/
theorem test_decode_zero_group :
    decode Config.built 0x0120 = .unsupportedOpcode 0x0120 ∧ decode low 0x0120 = .instr (.cls 0x12) ∧
      decode low 0x012E = .instr (.ret 0x12) := by decide
/-- F8, F9, F11, F12. -/
theorem test_decode_rejects :
    decode Config.built 0x8011 = .unsupportedOpcode 0x8011 ∧ decode ext 0x8005 = .unsupportedOpcode 0x8005 ∧
      decode ext 0x4000 = .unsupportedOpcode 0x4000 ∧ decode ext 0xE09E = .unsupportedOpcode 0xE09E := by decide
theorem test_decode_truncated : decodeBytes ext [0x12] = .truncated := by decide
theorem test_encode_bytes : encodeBytes (.drw 3 5 0xF) = [0xD3, 0x5F] := by decide
theorem test_table_word : decodeTableWord 16 0x8A76 = some (.shr 0xA 7) ∧ decodeTableWord 16 0x8A75 = none := by
  decide

/-! ## Vectors, at most two for each instruction -/

/-- D1. -/
theorem test_cls : nextHas (step ((code Config.built 0x00 0xE0).writeFB
    (Framebuffer.flip (Framebuffer.flip Framebuffer.clear 63 31) 10 5)))
    (fun t => !(t.FB.cell 63 31) && !(t.FB.cell 10 5) && t.pc == 0x202) = true := by decide
/-- R1. -/
theorem test_ret_underflow : nextHas (step (code Config.built 0x00 0xEE))
    (fun t => t.status == 0x0000020000EE0005 && t.pc == 0x200) = true := by decide
/-- R3. -/
theorem test_ret : nextHas (step { code ext 0x00 0xEE with S := [0x410, 0x202] })
    (fun t => t.pc == 0x410 && t.S == [0x202]) = true := by decide
/-- J1. -/
theorem test_jp : nextHas (step (code Config.built 0x12 0x50)) (fun t => t.pc == 0x250) = true := by decide
/-- C1. -/
theorem test_call : nextHas (step (code ext 0x22 0x06))
    (fun t => t.pc == 0x206 && t.S == [0x202]) = true := by decide
/-- C2. -/
theorem test_call_overflow : nextHas (step { code ext 0x22 0x00 with S := List.replicate 16 0x300 })
    (fun t => t.status == 0x000002002200000B && t.S.length == 16) = true := by decide
/-- S1. -/
theorem test_se_equal : nextHas (step ((code Config.built 0x33 0x07).writeV 3 0x07))
    (fun t => t.pc == 0x204) = true := by decide
/-- S2. -/
theorem test_se_unequal : nextHas (step ((code Config.built 0x33 0x08).writeV 3 0x07))
    (fun t => t.pc == 0x202) = true := by decide
/-- L2. -/
theorem test_ldByte : nextHas (step (code Config.built 0x6F 0xFF))
    (fun t => t.readV 0xF == 0xFF && t.readV 0xE == 0) = true := by decide
/-- A2. -/
theorem test_addByte_wraps : nextHas (step (((code Config.built 0x70 0x01).writeV 0 0xFF).writeV 0xF 0x55))
    (fun t => t.readV 0 == 0x00 && t.readV 0xF == 0x55) = true := by decide
/-- I1. -/
theorem test_ldI : nextHas (step (code Config.built 0xA1 0x23)) (fun t => t.I == 0x123) = true := by decide
/-- N1 of 2.4. -/
theorem test_rnd : (after 0xB7 (code Config.built 0xC5 0x0F)).readV 5 = 0x07 := by decide
/-- D11: wrap from right to left. -/
theorem test_drw_wrap : nextHas (step ({ ((code Config.built 0xD0 0x11).writeV 0 0x3C).writeBytes 0x300 [0xFF]
      with I := 0x300 }))
    (fun t => t.FB.cell 63 0 && t.FB.cell 0 0 && t.FB.cell 3 0 && !(t.FB.cell 4 0) && !(t.FB.cell 59 0) &&
      t.readV 0xF == 0) = true := by decide
/-- D8. -/
theorem test_drw_bounds : nextHas (step { code Config.built 0xD0 0x1F with I := 0xFF2 })
    (fun t => t.status == 0x10000200D01F0009 && t.FB == Framebuffer.clear) = true := by decide
/-- O4: the reset of VF wins over the result. -/
theorem test_orReg : nextHas (step (((code { ext with logicResetsVF := true } 0x8F 0x01).writeV 0 0x01).writeV 0xF 0x10))
    (fun t => t.readV 0xF == 0x00) = true := by decide
/-- N1 of 2.5. -/
theorem test_andReg : nextHas (step (((code ext 0x80 0x12).writeV 0 0x0C).writeV 1 0x0A))
    (fun t => t.readV 0 == 0x08) = true := by decide
/-- X3. -/
theorem test_xorReg : nextHas (step ((((code ext 0x80 0x13).writeV 0 0xFF).writeV 1 0xFF).writeV 0xF 0x01))
    (fun t => t.readV 0 == 0x00 && t.readV 0xF == 0x01) = true := by decide
/-- D5 of 2.5: the carry wins over the sum. -/
theorem test_addReg_flag_last : nextHas (step (((code ext 0x8F 0x14).writeV 0xF 0xF0).writeV 1 0x20))
    (fun t => t.readV 0xF == 0x01) = true := by decide
/-- D3 of 2.5. -/
theorem test_addReg_no_carry : nextHas (step ((((code ext 0x80 0x14).writeV 0 0x7F).writeV 1 0x01).writeV 0xF 0x01))
    (fun t => t.readV 0 == 0x80 && t.readV 0xF == 0x00) = true := by decide
/-- H4. -/
theorem test_shr_vy : nextHas (step ((code { ext with shiftSource := .vy } 0x80 0x16).writeV 1 0x03))
    (fun t => t.readV 0 == 0x01 && t.readV 0xF == 0x01 && t.readV 1 == 0x03) = true := by decide
/-- H6. -/
theorem test_shr_vx : nextHas (step (((code ext 0x80 0x16).writeV 0 0x04).writeV 1 0x03))
    (fun t => t.readV 0 == 0x02 && t.readV 0xF == 0x00) = true := by decide
/-- K1. -/
theorem test_shl : nextHas (step ((code ext 0x80 0x0E).writeV 0 0x81))
    (fun t => t.readV 0 == 0x02 && t.readV 0xF == 0x01) = true := by decide
/-- M1. -/
theorem test_storeRegs : nextHas (step { ((code ext 0xF1 0x55).writeV 0 0x08).writeV 1 0x20 with I := 0x300 })
    (fun t => t.readBytes 0x2FF 4 == [0x00, 0x08, 0x20, 0x00] && t.I == 0x300) = true := by decide
/-- M4. -/
theorem test_storeRegs_bounds : nextHas (step { (code ext 0xFF 0x55).writeV 0 0x01 with I := 0xFF1 })
    (fun t => t.status == 0x10000200FF550009 && t.readByte 0xFF1 == 0) = true := by decide
/-- M9. -/
theorem test_loadRegs : nextHas (step { (code { ext with loadStoreIncrementsI := true } 0xF1 0x65).writeBytes 0x300
      [0x01, 0x02] with I := 0x300 })
    (fun t => t.readV 0 == 0x01 && t.readV 1 == 0x02 && t.I == 0x302) = true := by decide
/-- F13. -/
theorem test_fetch_bounds : nextHas (step { State.reset with pc := 0xFFF })
    (fun t => t.status == 0x10000FFF00000009) = true := by decide
/-- R52 at pc = 0x1002: FADDR is max(pc, 0x1000) = 0x1002 (vector F17 says otherwise,
notes/assumptions/11.md). -/
theorem test_fetch_bounds_high : nextHas (step { State.reset with pc := 0x1002 })
    (fun t => t.status == 0x1002100200000009) = true := by decide
/-- F6. -/
theorem test_unsupported : nextHas (step (code Config.built 0xF0 0x00))
    (fun t => t.status == 0x00000200F0000003 && t.pc == 0x200) = true := by decide
/-- T9. -/
theorem test_step_before_load : nextHas (step State.reset) (fun t => t.status == 0x0000020000000003) = true := by
  decide
/-- T4. -/
theorem test_load_twice : ((State.reset.doLoad [0x11, 0x22, 0x33]).doLoad [0x44]).readBytes 0x1FF 5 =
    [0x00, 0x44, 0x22, 0x33, 0x00] := by decide
/-- The host's probe: an `EXTENDED` word placed on the reset state runs next. -/
theorem test_placed_word_runs : nextHas (step (State.reset.withFetchWord 16 0x2206))
    (fun t => t.pc == 0x206 && t.S == [0x202] && !t.faulted) = true := by decide
/-- A word that the default build has leaves the build alone. -/
theorem test_placed_word_keeps_build : (State.reset.withFetchWord 16 0x1250).cfg = Config.built := by decide

/-! ## Witnesses: concrete states and operands that meet the hypotheses of each statement -/

theorem witness_DecodeOfEncodeIsTheInstruction :
    (Instr.drw 0xF 0xF 0xF).wellFormed Config.built = true ∧ (Instr.ret 0xFF).wellFormed low = true := by decide
theorem witness_EncodeOfDecodeIsTheWord :
    decode ext 0xFF65 = .instr (.loadRegs 0xF) ∧ decode ext 0xFFFF = .unsupportedOpcode 0xFFFF := by decide
theorem witness_OpcodeMapIsExclusiveAndTheDecoderAgrees :
    (⟨"SHL_Vx__Vy", 0xF00F, 0x800E, true⟩ : OpcodeRow) ∈ opcodeMap ext ∧
      (⟨"SHL_Vx__Vy", 0xF00F, 0x800E, true⟩ : OpcodeRow).matchesWord 0x8FFE = true ∧
      decode ext 0x8FFE = .instr (.shl 0xF 0xF) := by decide
theorem witness_IllegalWordsAreRejected :
    (Config.built.profile = .source ∧ Config.built.zeroGroupDecode = .exact) ∧
      (ext.profile = .extended ∧ ext.zeroGroupDecode = .exact) ∧ low.zeroGroupDecode = .lowNibble ∧
      (∀ r ∈ opcodeMap Config.built, r.matchesWord 0xF000 = false) ∧
      (code Config.built 0xF0 0x00).cfg = Config.built ∧ (code Config.built 0xF0 0x00).running ∧
      (code Config.built 0xF0 0x00).pc.toNat ≤ 0xFFE ∧ (code Config.built 0xF0 0x00).fetchWord = 0xF000 := by
  decide
theorem witness_StepRunsTheDecodedInstruction :
    (code ext 0x80 0x14).running ∧ (code ext 0x80 0x14).pc.toNat ≤ 0xFFE ∧
      (Instr.addReg 0 1).wellFormed (code ext 0x80 0x14).cfg = true ∧
      decodeBytes (code ext 0x80 0x14).cfg [(code ext 0x80 0x14).readByte (code ext 0x80 0x14).pc.toNat,
        (code ext 0x80 0x14).readByte ((code ext 0x80 0x14).pc.toNat + 1)] = .instr (.addReg 0 1) [] := by decide
/-- One witness for each of the four cases of the cycle; the fetch bound at its first failing pc, the fetch
that succeeds at the last pc. -/
theorem witness_StepTransactionFollowsTheCycle :
    (State.reset.raise .stackUnderflow 0x00EE 0).faulted = true ∧
      (({ State.reset with pc := 0xFFF } : State).running ∧
        0xFFF < ({ State.reset with pc := 0xFFF } : State).pc.toNat + 1) ∧
      (({ State.reset with pc := 0xFFE } : State).running ∧
        ({ State.reset with pc := 0xFFE } : State).pc.toNat + 1 ≤ 0xFFF ∧
        decode State.reset.cfg ({ State.reset with pc := 0xFFE } : State).fetchWord = .unsupportedOpcode 0) ∧
      decode Config.built (code Config.built 0x12 0x00).fetchWord = .instr (.jp 0x200) := by decide
theorem witness_PlacedWordRunsNext :
    State.reset.mem.wf ∧ State.reset.running ∧ State.reset.pc.toNat ≤ 0xFFE ∧
      decode (State.reset.cfg.forWord (tableWord 16 0xF155)) (tableWord 16 0xF155) = .instr (.storeRegs 1) := by
  decide
theorem witness_FetchIsBigEndianAndBounded :
    ({ State.reset with pc := 0xFFF } : State).running ∧
      0xFFF < ({ State.reset with pc := 0xFFF } : State).pc.toNat + 1 := by decide
theorem witness_FaultingTransactionChangesOnlyStatus :
    (code Config.built 0x00 0xEE).running ∧ ∃ t resp,
      transact (.step 0) (code Config.built 0x00 0xEE) = .next (t, resp) ∧ t.faulted = true :=
  ⟨by decide, _, _, rfl, by decide⟩
theorem witness_FaultedCoreWaitsForReset : (State.reset.raise .outOfBoundsLoad 0 0x1000).faulted = true := by decide
theorem witness_FaultedCoreWaitsForReset_leaves : ∃ t resp,
    transact .reset (State.reset.raise .outOfBoundsLoad 0 0x1000) = .next (t, resp) ∧ t.running :=
  ⟨_, _, rfl, by decide⟩
/-- A transaction from status 0 for each row of R207: no fault, then codes 1, 2, 4 (at fetch and in a
handler), 5. -/
theorem witness_FaultRecordsAreTheTableRows :
    (∀ s ∈ [code Config.built 0x60 0x05, State.reset, code Config.built 0x00 0xEE,
        { State.reset with pc := 0xFFF }, { code ext 0xF2 0x65 with I := 0xFFE },
        { code ext 0x22 0x00 with S := List.replicate 16 0 }], s.status = 0) ∧
      ([code Config.built 0x60 0x05, State.reset, code Config.built 0x00 0xEE,
        { State.reset with pc := 0xFFF }, { code ext 0xF2 0x65 with I := 0xFFE },
        { code ext 0x22 0x00 with S := List.replicate 16 0 }].map fun s => (after 0 s).faultCode) =
        [0, 1, 2, 4, 4, 5] := by decide
/-- The load of one byte too many: code 3. -/
theorem witness_FaultRecordsAreTheTableRows_load :
    (State.reset.doLoad (List.replicate 0xE01 0xAB)).faultCode = 3 := by
  have h : State.reset.doLoad (List.replicate 0xE01 0xAB) = State.reset.raise .outOfBoundsLoad 0 0x1000 := by
    rcases State.doLoad_cases State.reset (List.replicate 0xE01 0xAB) with ⟨h, -⟩ | ⟨-, -, h⟩ | ⟨-, h, -⟩
    · exact absurd h (by decide)
    · exact h
    · rw [List.length_replicate] at h; exact absurd h (by decide)
  rw [h]; decide
theorem witness_ResetMeetsTheInvariant : ext.valid = true ∧ low.valid = true := by decide
theorem witness_LoadCopiesTheImageTo0x200 :
    State.reset.mem.wf ∧ State.reset.running ∧ (List.replicate 0xE00 (0xAB : Byte)).length ≤ 0xE00 :=
  ⟨by decide, by decide, by rw [List.length_replicate]⟩
theorem witness_OversizedImageIsRejected :
    State.reset.running ∧ 0xE00 < (List.replicate 0xE01 (0xAB : Byte)).length :=
  ⟨by decide, by rw [List.length_replicate]; decide⟩
theorem witness_ClsClearsEveryCell_low : low.zeroGroupDecode = .lowNibble := by decide
/-- Both branches of the bounds check at its edge, and no check for n = 0. -/
theorem witness_DrwDrawsByXorAndSetsCollision :
    (0 < (0xF : Nibble).toNat ∧ 0xFFF < (0xFF2 : Word).toNat + (0xF : Nibble).toNat - 1) ∧
      ¬ (0 < (0xF : Nibble).toNat ∧ 0xFFF < (0xFF1 : Word).toNat + (0xF : Nibble).toNat - 1) ∧
      ¬ (0 < (0x0 : Nibble).toNat ∧ 0xFFF < (0xFFF : Word).toNat + (0x0 : Nibble).toNat - 1) := by decide
/-- A sprite of one pixel at 0x300, drawn at (0, 0) of a clear framebuffer. -/
def onePixel : State := { (State.reset).writeBytes 0x300 [0x80] with I := 0x300 }
theorem witness_DrwDrawsByXorAndSetsCollision_covers :
    onePixel.spriteCovers (onePixel.readV 0) (onePixel.readV 1) 1 0 0 :=
  ⟨0, 0, by decide, by decide, by decide, by decide, by decide⟩
theorem witness_DrawingTwiceRestoresTheFramebuffer : ∃ t u,
    outOfBounds onePixel.I (1 : Nibble).toNat = false ∧ exec (.drw 0 1 1) onePixel = .next t ∧
      t.readV 0 = onePixel.readV 0 ∧ t.readV 1 = onePixel.readV 1 ∧ exec (.drw 0 1 1) t = .next u :=
  ⟨_, _, by decide, rfl, by decide, by decide, rfl⟩
/-- The clauses on the sprite's bytes: a 1-bit after a draw that erased nothing, and a sprite of zeros. -/
theorem witness_DrawingTwiceRestoresTheFramebuffer_bytes :
    (nextHas (exec (.drw 0 1 1) onePixel) (fun t => t.readV 0xF == 0) = true) ∧
      (∃ row, row < (1 : Nibble).toNat ∧ onePixel.readByte (onePixel.I.toNat + row) ≠ 0) ∧
      ∀ row, row < (1 : Nibble).toNat → State.reset.readByte (State.reset.I.toNat + row) = 0 := by
  refine ⟨by decide, ⟨0, by decide, by decide⟩, ?_⟩
  intro row _
  rfl
/-- R112 and R115 by hand on one cell that was 1: the first draw erases it (VF = 1), the second erases nothing
(VF = 0), against the second sentence of R116 (notes/assumptions/10.md). -/
theorem test_second_draw_over_set_cells :
    nextHas (exec (.drw 0 1 1) { onePixel with FB := Framebuffer.clear.flip 0 0 })
      (fun t => t.readV 0xF == 1 && !(t.FB.cell 0 0) &&
        nextHas (exec (.drw 0 1 1) t) (fun u => u.readV 0xF == 0 && u.FB.cell 0 0)) = true := by decide
theorem witness_SecondDrawAlwaysCollides :
    ∃ row, row < (1 : Nibble).toNat ∧ onePixel.readByte (onePixel.I.toNat + row) ≠ 0 :=
  ⟨0, by decide, by decide⟩
theorem witness_RetPopsIntoPc :
    State.reset.S = [] ∧ ({ State.reset with S := [0x204, 0x202] } : State).S = 0x204 :: [0x202] := by decide
theorem witness_SeSkipsOnEquality : State.reset.readV 3 = 0x00 ∧ State.reset.readV 3 ≠ 0x07 := by decide
theorem witness_CallPushesTheReturnAddress :
    ({ State.reset with S := List.replicate 16 0 } : State).cfg.stackDepth =
        .bounded ({ State.reset with S := List.replicate 16 0 } : State).S.length ∧
      ({ State.reset with S := List.replicate 15 0 } : State).cfg.stackDepth ≠
        .bounded ({ State.reset with S := List.replicate 15 0 } : State).S.length ∧
      (StackDepth.unbounded ≠ .bounded 16) := by decide
theorem witness_RetResumesAfterTheCall : ∃ t,
    State.reset.running ∧ exec (.call 0x206) State.reset = .next t ∧ t.running ∧ t.S = t.S :=
  ⟨((State.reset.push (State.reset.pc + 2)).jump (addressOperand 0x206)), by decide, rfl, by decide, rfl⟩
theorem witness_RndMasksTheRandomInput : (State.reset.present (some 0xB7)).rIn = some 0xB7 := by decide
theorem witness_LogicInstructions :
    (State.resetWith { ext with logicResetsVF := true }).cfg.logicResetsVF = true ∧
      ¬ ((State.resetWith ext).cfg.logicResetsVF = true ∧ (0xF : Nibble) = 0xF) := by decide
theorem witness_AddRegSetsTheCarry :
    256 ≤ (((State.reset.writeV 0 0xFF).writeV 1 0x01).readV 0).toNat +
        (((State.reset.writeV 0 0xFF).writeV 1 0x01).readV 1).toNat ∧
      (((State.reset.writeV 0 0xFF).writeV 1 0x00).readV 0).toNat +
        (((State.reset.writeV 0 0xFF).writeV 1 0x00).readV 1).toNat < 256 := by decide
/-- Both branches of the bounds check at its edge. -/
theorem witness_StoreRegsWritesTheBlockAtI :
    State.reset.mem.wf ∧ 0xFFF < (0xFF1 : Word).toNat + (0xF : Nibble).toNat ∧
      (0xFF0 : Word).toNat + (0xF : Nibble).toNat ≤ 0xFFF ∧
      (State.resetWith { ext with loadStoreIncrementsI := true }).cfg.loadStoreIncrementsI = true := by decide
theorem witness_LoadRegsReadsTheBlockAtI :
    0xFFF < (0xFF1 : Word).toNat + (0xF : Nibble).toNat ∧ (0xFF0 : Word).toNat + (0xF : Nibble).toNat ≤ 0xFFF := by
  decide
theorem witness_PcFollowsTheTable :
    State.reset.running ∧ (∃ t, exec (.jp 0x250) State.reset = .next t ∧ t.faulted = false) ∧
      (∃ t, exec (.ret 0x0E) State.reset = .next t ∧ t.faulted = true) ∧
      ∃ t, step { State.reset with pc := 0xFFF } = .next t ∧ t.faulted = true :=
  ⟨by decide, ⟨_, rfl, by decide⟩, ⟨_, rfl, by decide⟩, ⟨_, rfl, by decide⟩⟩
theorem witness_RegistersFollowTheReadWriteTable : ∃ t t',
    State.reset.writeV 7 0x55 = { State.reset with V := (State.reset.writeV 7 0x55).V } ∧
      (∀ j, readsV State.reset.cfg (.addByte 3 1) j → (State.reset.writeV 7 0x55).readV j = State.reset.readV j) ∧
      exec (.addByte 3 1) State.reset = .next t ∧ exec (.addByte 3 1) (State.reset.writeV 7 0x55) = .next t' :=
  ⟨_, _, rfl, fun j h => by subst h; decide, rfl, rfl⟩
theorem witness_FrameRules : ∃ t, exec (.ldByte 0 5) State.reset = .next t ∧
    (Instr.ldByte 0 5).mnemonic ≠ "LD__I___Vx" ∧ (Instr.ldByte 0 5).mnemonic ≠ "CLS" ∧
    (Instr.ldByte 0 5).mnemonic ≠ "DRW_Vx__Vy__n" :=
  ⟨_, rfl, by decide, by decide, by decide⟩
theorem witness_OnlyTheBlockStoreWritesMemory_source : ∃ t,
    (code Config.built 0x60 0x05).cfg.profile = .source ∧ step (code Config.built 0x60 0x05) = .next t :=
  ⟨_, rfl, rfl⟩
theorem witness_OnlyItsWritersChangeI : ∃ t, exec (.ldI 0x123) State.reset = .next t ∧ t.I ≠ State.reset.I :=
  ⟨_, rfl, by decide⟩
theorem witness_RandomInputReachesOnlyRnd :
    ∀ x kk, decode Config.built (code Config.built 0x12 0x50).fetchWord ≠ .instr (.rnd x kk) := by
  intro x kk h
  have e : decode Config.built (code Config.built 0x12 0x50).fetchWord = .instr (.jp 0x250) := by decide
  rw [e] at h
  cases h
theorem witness_ParkedCoreIsAFixedPoint : (code Config.built 0x12 0x00).parked := by decide
/-- I two bytes before the store's own successor: the store at 0x202 covers the word fetched next. -/
def storeAhead : State := { ((code ext 0xF1 0x55).writeV 0 0x12).writeV 1 0x02 with I := 0x202 }
theorem witness_NextFetchSeesTheStore : ∃ t,
    storeAhead.mem.wf ∧ storeAhead.I.toNat + (1 : Nibble).toNat ≤ 0xFFF ∧ 0 + 1 ≤ (1 : Nibble).toNat ∧
      exec (.storeRegs 1) storeAhead = .next t ∧ t.pc.toNat = storeAhead.I.toNat + 0 :=
  ⟨((storeAhead.writeBytes storeAhead.I.toNat (storeAhead.readRegs 1)).writeI (storeAhead.blockEndI 1)).advance,
    by decide, by decide, by decide, rfl, by decide⟩
theorem witness_WellFormedMemoriesThatReadAlikeAreEqual :
    Memory.wf [(0x200, 0x12), (0xFFF, 0x34)] ∧ Memory.wf (Memory.write [(0x200, 0x12)] 0xFFF 0x34) ∧
      Memory.write [(0x200, 0x12)] 0xFFF 0x34 = [(0x200, 0x12), (0xFFF, 0x34)] := by decide
theorem witness_NoTransactionChangesTheBuild : ∃ t resp, transact .reset State.reset = .next (t, resp) :=
  ⟨_, _, rfl⟩

/-- A state with code, a full stack and I at its edge. -/
def edge : State := { code ext 0xF0 0x55 with S := List.replicate 16 0x1000, I := 0xFFF }
theorem edge_statusLegal : edge.statusLegal := by
  unfold State.statusLegal; left; decide
theorem edge_stackDepth : StackDepth.admits edge.cfg.stackDepth edge.S.length := Nat.le_refl 16
theorem edge_mem_wf : edge.mem.wf := by decide
theorem edge_stackEntries : ∀ a ∈ edge.S, a.toNat ≤ 0x1000 := by
  intro a h
  rw [List.eq_of_mem_replicate (show a ∈ List.replicate 16 (0x1000 : Word) from h)]
  decide
theorem witness_Inv : edge.Inv :=
  ⟨by decide, edge_mem_wf, by decide, by decide, fun _ => by decide, edge_stackDepth, edge_stackEntries,
    fun h => absurd h (by decide), edge_statusLegal⟩
theorem witness_StepKeepsTheInvariant : ∃ t, step edge = .next t :=
  ⟨_, rfl⟩
theorem witness_TransactionsKeepTheInvariant : ∃ t resp, transact (.step 0) edge = .next (t, resp) :=
  ⟨_, _, rfl⟩

/-- A `SOURCE` state with RET at pc. -/
def retInSource : State := code Config.built 0x00 0xEE
theorem retInSource_statusLegal : retInSource.statusLegal := by
  unfold State.statusLegal; left; decide
theorem retInSource_stackDepth : StackDepth.admits retInSource.cfg.stackDepth retInSource.S.length :=
  Nat.zero_le 16
theorem retInSource_mem_wf : retInSource.mem.wf := by decide
theorem retInSource_inv : retInSource.Inv :=
  ⟨by decide, retInSource_mem_wf, by decide, by decide, fun _ => by decide, retInSource_stackDepth,
    (fun a h => absurd (show a ∈ ([] : List Word) from h) (by simp)), fun _ => rfl, retInSource_statusLegal⟩
theorem witness_RetAlwaysUnderflowsInSource :
    retInSource.Inv ∧ retInSource.cfg.profile = .source ∧ retInSource.running ∧
      retInSource.pc.toNat ≤ 0xFFE ∧
      decode retInSource.cfg retInSource.fetchWord = .instr (.ret 0x0E) :=
  ⟨retInSource_inv, by decide, by decide, by decide, by decide⟩

end Sys2Proof.Tests
end

section
/-! SUPPORT. What an instruction that does not fault does to the control state, pc and the V registers
(spec/10_state.md R23, R28), and two runs of one instruction from states that differ in V only. -/

namespace Sys2Proof.Machine

/-! ## Operands -/

@[simp] theorem addressOperand_toNat (nnn : Addr12) : (addressOperand nnn).toNat = nnn.toNat := by
  have := nnn.isLt
  rw [addressOperand, BitVec.toNat_setWidth, Nat.mod_eq_of_lt (by omega)]

/-- SHR and SHL shift the same value where the one register they read is the same. -/
theorem State.shiftOperand_congr {s : State} {W : Vector Byte 16} {x y : Nibble}
    (h : ∀ j, readsV s.cfg (.shr x y) j → State.readV { s with V := W } j = s.readV j) :
    State.shiftOperand { s with V := W } x y = s.shiftOperand x y := by
  unfold State.shiftOperand
  cases hs : s.cfg.shiftSource with
  | vx => exact h x (by simp [readsV, hs])
  | vy => exact h y (by simp [readsV, hs])

theorem State.readRegs_congr {s s' : State} {x : Nibble} (h : ∀ j, j ≤ x → s'.readV j = s.readV j) :
    s'.readRegs x = s.readRegs x := by
  refine List.map_congr_left fun k hk => h _ ?_
  have hk' := List.mem_range.1 hk
  have := x.isLt
  rw [BitVec.le_def, BitVec.toNat_ofNat]
  omega

/-! ## Frames of the register writes -/

section
variable {s u : State} {P : Nibble → Prop}

theorem State.keepsRegsBut.refl (s : State) (P : Nibble → Prop) : s.keepsRegsBut s P := fun _ _ => rfl

theorem State.keepsRegsBut.writeV (h : s.keepsRegsBut u P) {x : Nibble} (hx : P x) (v : Byte) :
    s.keepsRegsBut (u.writeV x v) P := fun j hj => by
  have hjx : j ≠ x := fun e => hj (e ▸ hx)
  rw [State.writeV_readV, if_neg hjx, h j hj]

theorem State.keepsRegsBut.logicFlag (h : s.keepsRegsBut u P)
    (hF : u.cfg.logicResetsVF = true → P 0xF) : s.keepsRegsBut u.logicFlag P := fun j hj => by
  have hj' : ¬ (u.cfg.logicResetsVF = true ∧ j = 0xF) := fun ⟨hc, e⟩ => hj (e ▸ hF hc)
  rw [State.logicFlag_readV, if_neg hj', h j hj]

/-- A block load up to V[x] keeps the registers above x (R192). -/
theorem State.keepsRegsBut_writeRegs (s : State) (x : Nibble) (bs : List Byte)
    (hb : bs.length = blockLength x) : s.keepsRegsBut (s.writeRegs 0 bs) (· ≤ x) := fun j hj => by
  have hx := x.isLt
  have hj' : ¬ j.toNat ≤ x.toNat := hj
  rw [blockLength] at hb
  rw [State.writeRegs_readV _ _ _ (by omega), if_neg (by omega)]

end

/-! ## An instruction faults, or completes as its rows of the tables say -/

/-- `t` is what instruction `i` leaves of `s` when it does not fault: build, latch and input are kept, pc is
the row of R28, and only the registers in the `writes` column of R23 changed. -/
structure Completes (i : Instr) (s t : State) : Prop where
  control : s.keepsControl t
  pc : t.pc.toNat = nextPc i s
  regs : s.keepsRegsBut t (writesV s.cfg i)

/-- The instructions that do not redirect control flow end with pc advanced by 2. -/
theorem Completes.of_advance {i : Instr} {s u : State} (hn : nextPc i s = (s.pc.toNat + 2) % 2 ^ 16)
    (hc : s.keepsControl u) (hp : u.pc = s.pc) (hr : s.keepsRegsBut u (writesV s.cfg i)) :
    Completes i s u.advance where
  control := hc
  pc := by rw [hn, State.advance_pc, hp, BitVec.toNat_add]; rfl
  regs := hr

/-- OR, AND and XOR share their writes: V[x], and VF where the build resets it (R170, R172, R174). -/
theorem Completes.of_logic {i : Instr} {s : State} {x : Nibble} {v : Byte}
    (hn : nextPc i s = (s.pc.toNat + 2) % 2 ^ 16) (hx : writesV s.cfg i x)
    (hF : s.cfg.logicResetsVF = true → writesV s.cfg i 0xF) :
    Completes i s (s.writeV x v).logicFlag.advance :=
  .of_advance hn (by simp [State.keepsControl]) (by simp)
    (((State.keepsRegsBut.refl s _).writeV hx v).logicFlag hF)

/-- What an instruction can do: raise a fault, or complete as its rows of the tables say. -/
theorem exec_cases (i : Instr) (s : State) :
    (∃ k opcode addr, exec i s = .next (s.raise k opcode addr)) ∨
    ∃ t, exec i s = .next t ∧ Completes i s t := by
  have keep := State.keepsRegsBut.refl s (writesV s.cfg i)
  have same : s.keepsControl s := ⟨rfl, rfl, rfl, rfl⟩
  cases i with
  | cls | ldI => exact .inr ⟨_, rfl, .of_advance rfl same rfl keep⟩
  | ret mid =>
    obtain ⟨-, e⟩ | ⟨top, rest, hS, e⟩ := execRet_cases mid s
    · exact .inl ⟨_, _, _, e⟩
    · exact .inr ⟨_, e, same, by simp [nextPc, hS], keep⟩
  | jp nnn => exact .inr ⟨_, rfl, same, addressOperand_toNat nnn, keep⟩
  | call nnn =>
    obtain ⟨-, e⟩ | ⟨-, e⟩ := execCall_cases nnn s
    · exact .inl ⟨_, _, _, e⟩
    · exact .inr ⟨_, e, same, addressOperand_toNat nnn, keep⟩
  | seByte x kk =>
    obtain ⟨hk, e⟩ | ⟨hk, e⟩ := execSeByte_cases x kk s
    · exact .inr ⟨_, e, same, by simp [nextPc, hk], keep⟩
    · exact .inr ⟨_, e, .of_advance (if_neg hk) same rfl keep⟩
  | ldByte | addByte | rnd => exact .inr ⟨_, rfl, .of_advance rfl same rfl (keep.writeV rfl _)⟩
  | orReg | andReg | xorReg => exact .inr ⟨_, rfl, .of_logic rfl (.inl rfl) fun hc => .inr ⟨hc, rfl⟩⟩
  | addReg | shr | shl =>
    exact .inr ⟨_, rfl, .of_advance rfl same rfl ((keep.writeV (.inl rfl) _).writeV (.inr rfl) _)⟩
  | drw x y n =>
    obtain ⟨-, e⟩ | ⟨-, fb, hit, -, e⟩ := execDrw_cases x y n s
    · exact .inl ⟨_, _, _, e⟩
    · exact .inr ⟨_, e, .of_advance rfl same rfl
        (State.keepsRegsBut.writeV (u := s.writeFB fb) keep rfl _)⟩
  | storeRegs x =>
    obtain ⟨-, e⟩ | ⟨-, e⟩ := execStoreRegs_cases x s
    · exact .inl ⟨_, _, _, e⟩
    · exact .inr ⟨_, e, .of_advance rfl same rfl keep⟩
  | loadRegs x =>
    obtain ⟨-, e⟩ | ⟨-, e⟩ := execLoadRegs_cases x s
    · exact .inl ⟨_, _, _, e⟩
    · exact .inr ⟨_, e, .of_advance rfl (by simp [State.keepsControl]) (by simp)
        (s.keepsRegsBut_writeRegs x _ (s.readBytes_length _ _))⟩

/-- The same, read off a given outcome. -/
theorem exec_next_cases {i : Instr} {s t : State} (h : exec i s = .next t) :
    (∃ k opcode addr, t = s.raise k opcode addr) ∨ Completes i s t := by
  obtain ⟨k, o, a, e⟩ | ⟨u, e, hu⟩ := exec_cases i s
  · exact .inl ⟨k, o, a, Host.Outcome.next.inj (h.symm.trans e)⟩
  · cases h.symm.trans e
    exact .inr hu

theorem exec_keepsRegsBut {i : Instr} {s t : State} (h : exec i s = .next t) :
    s.keepsRegsBut t (writesV s.cfg i) := by
  obtain ⟨k, o, a, rfl⟩ | hc := exec_next_cases h
  · exact .refl s _
  · exact hc.regs

/-- A handler that leaves a RUNNING core FAULTED raised the fault itself, so pc stands (R202). -/
theorem exec_pc_of_faulted {i : Instr} {s t : State} (hs : s.running) (h : exec i s = .next t)
    (ht : t.faulted = true) : t.pc = s.pc := by
  obtain ⟨k, o, a, rfl⟩ | ⟨⟨-, hstatus, -, -⟩, -, -⟩ := exec_next_cases h
  · rfl
  · rw [State.faulted, hstatus] at ht
    exact absurd (hs.symm.trans ht) (by decide)

/-- A handler that leaves the core RUNNING completed, so pc is the row of R28. -/
theorem exec_pc_of_running {i : Instr} {s t : State} (h : exec i s = .next t) (ht : t.running) :
    t.pc.toNat = nextPc i s := by
  obtain ⟨k, o, a, rfl⟩ | hc := exec_next_cases h
  · exact absurd ((s.raise_faulted k o a).symm.trans ht) (by decide)
  · exact hc.pc

theorem step_pc_of_faulted {s t : State} (h : step s = .next t) (ht : t.faulted = true) : t.pc = s.pc := by
  obtain ⟨-, e⟩ | ⟨-, -, e⟩ | ⟨-, -, w, -, e⟩ | ⟨hs, -, i, -, e⟩ := stepWith_cases none s
  case inr.inr.inr => exact exec_pc_of_faulted (s := s.present none) hs (e.symm.trans h) ht
  all_goals
    cases h.symm.trans e
    rfl

/-- Settles O41: every instruction completes with its row of R28 or raises a fault, and a fault keeps pc. -/
theorem pcFollowsTheTable : Obligations.PcFollowsTheTable :=
  ⟨fun _ _ _ hs h => ⟨exec_pc_of_running h, exec_pc_of_faulted hs h⟩, fun _ _ => step_pc_of_faulted⟩

/-! ## Two runs from states that differ in V only -/

/-- Two runs, begun in `s` and `s'`, have reached `t` and `t'`: outside V they agree, and each V register is
the same in both or is in each what it was at the start. -/
structure Coupled (s s' t t' : State) : Prop where
  others : ∃ W, t' = { t with V := W }
  regs : ∀ j, t'.readV j = t.readV j ∨ (t'.readV j = s'.readV j ∧ t.readV j = s.readV j)

namespace Coupled

theorem start (s : State) (W : Vector Byte 16) : Coupled s { s with V := W } s { s with V := W } :=
  ⟨⟨W, rfl⟩, fun _ => .inr ⟨rfl, rfl⟩⟩

variable {s s' t t' : State}

/-- The two runs may both apply an update that neither reads nor writes V. -/
theorem map (h : Coupled s s' t t') (f : State → State)
    (hf : ∀ u W, f { u with V := W } = { f u with V := W }) : Coupled s s' (f t) (f t') := by
  have hV : ∀ u, (f u).V = u.V := fun u => (congrArg State.V (hf u u.V) :)
  have hread : ∀ u j, (f u).readV j = u.readV j := fun u j => by simp only [State.readV, hV]
  refine ⟨?_, fun j => by simpa only [hread] using h.regs j⟩
  obtain ⟨W, rfl⟩ := h.others
  exact ⟨W, hf t W⟩

theorem advance (h : Coupled s s' t t') : Coupled s s' t.advance t'.advance :=
  h.map State.advance fun _ _ => rfl

theorem raise (h : Coupled s s' t t') (k : FaultKind) (opcode addr : Word) :
    Coupled s s' (t.raise k opcode addr) (t'.raise k opcode addr) :=
  h.map (·.raise k opcode addr) fun _ _ => rfl

theorem writeI (h : Coupled s s' t t') (a : Word) : Coupled s s' (t.writeI a) (t'.writeI a) :=
  h.map (·.writeI a) fun _ _ => rfl

theorem writeFB (h : Coupled s s' t t') (fb : Framebuffer) : Coupled s s' (t.writeFB fb) (t'.writeFB fb) :=
  h.map (·.writeFB fb) fun _ _ => rfl

theorem writeBytes (h : Coupled s s' t t') (a : Nat) (bs : List Byte) :
    Coupled s s' (t.writeBytes a bs) (t'.writeBytes a bs) :=
  h.map (·.writeBytes a bs) fun _ _ => rfl

/-- The two runs may both write one value to one register, which then is the same in both. -/
theorem writeV (h : Coupled s s' t t') (x : Nibble) (v : Byte) :
    Coupled s s' (t.writeV x v) (t'.writeV x v) := by
  refine ⟨?_, fun j => ?_⟩
  · obtain ⟨W, rfl⟩ := h.others
    exact ⟨W.set x.toNat v, rfl⟩
  · rw [State.writeV_readV, State.writeV_readV]
    by_cases hj : j = x
    · exact .inl (by rw [if_pos hj, if_pos hj])
    · rw [if_neg hj, if_neg hj]
      exact h.regs j

theorem logicFlag (h : Coupled s s' t t') : Coupled s s' t.logicFlag t'.logicFlag := by
  have hcfg : t'.cfg = t.cfg := by obtain ⟨W, rfl⟩ := h.others; rfl
  unfold State.logicFlag
  rw [hcfg]
  split
  · exact h.writeV 0xF 0
  · exact h

theorem writeRegs (h : Coupled s s' t t') (first : Nat) (bs : List Byte) :
    Coupled s s' (t.writeRegs first bs) (t'.writeRegs first bs) := by
  induction bs generalizing t t' first with
  | nil => exact h
  | cons v rest ih => exact ih (h.writeV _ v) (first + 1)

end Coupled

/-- From two states that differ in V only, and there not in what the instruction reads, both runs of the
instruction write the same values to the same places. -/
theorem exec_coupled (i : Instr) (s : State) (W : Vector Byte 16)
    (hr : ∀ j, readsV s.cfg i j → State.readV { s with V := W } j = s.readV j) :
    ∃ t t', exec i s = .next t ∧ exec i { s with V := W } = .next t' ∧ Coupled s { s with V := W } t t' := by
  have h := Coupled.start s W
  cases i with
  | cls mid => exact ⟨_, _, rfl, rfl, (h.writeFB _).advance⟩
  | ret mid =>
    obtain ⟨hS, e⟩ | ⟨top, rest, hS, e⟩ := execRet_cases mid s
    · exact ⟨_, _, e, by simp only [exec, execRet, hS], h.raise _ _ _⟩
    · exact ⟨_, _, e, by simp only [exec, execRet, hS], h.map (·.dropTop.jump top) fun _ _ => rfl⟩
  | jp nnn => exact ⟨_, _, rfl, rfl, h.map (·.jump (addressOperand nnn)) fun _ _ => rfl⟩
  | call nnn =>
    by_cases hd : StackDepth.full s.cfg.stackDepth s.S.length = true
    · exact ⟨_, _, if_pos hd, if_pos hd, h.raise _ _ _⟩
    · exact ⟨_, _, if_neg hd, if_neg hd,
        h.map (fun u => (u.push (u.pc + 2)).jump (addressOperand nnn)) fun _ _ => rfl⟩
  | seByte x kk =>
    have hx := hr x rfl
    by_cases hk : s.readV x = kk
    · exact ⟨_, _, if_pos hk, if_pos (hx.trans hk), h.map State.skip fun _ _ => rfl⟩
    · exact ⟨_, _, if_neg hk, if_neg (hx ▸ hk), h.advance⟩
  | ldByte x _ | rnd x _ => exact ⟨_, _, rfl, rfl, (h.writeV x _).advance⟩
  | addByte x kk =>
    refine ⟨_, _, rfl, rfl, ?_⟩
    rw [hr x rfl]
    exact (h.writeV x _).advance
  | orReg x y | andReg x y | xorReg x y =>
    refine ⟨_, _, rfl, rfl, ?_⟩
    rw [hr x (.inl rfl), hr y (.inr rfl)]
    exact (h.writeV x _).logicFlag.advance
  | addReg x y =>
    refine ⟨_, _, rfl, rfl, ?_⟩
    rw [hr x (.inl rfl), hr y (.inr rfl)]
    exact ((h.writeV x _).writeV 0xF _).advance
  | shr x y | shl x y =>
    refine ⟨_, _, rfl, rfl, ?_⟩
    rw [State.shiftOperand_congr hr]
    exact ((h.writeV x _).writeV 0xF _).advance
  | ldI nnn => exact ⟨_, _, rfl, rfl, (h.writeI _).advance⟩
  | drw x y n =>
    by_cases hb : outOfBounds s.I n.toNat = true
    · exact ⟨_, _, if_pos hb, if_pos hb, h.raise _ _ _⟩
    · refine ⟨_, _, if_neg hb, if_neg hb, ?_⟩
      rw [hr x (.inl rfl), hr y (.inr rfl)]
      exact ((h.writeFB _).writeV 0xF _).advance
  | storeRegs x =>
    by_cases hb : outOfBounds s.I (blockLength x) = true
    · exact ⟨_, _, if_pos hb, if_pos hb, h.raise _ _ _⟩
    · refine ⟨_, _, if_neg hb, if_neg hb, ?_⟩
      rw [State.readRegs_congr hr]
      exact ((h.writeBytes _ _).writeI _).advance
  | loadRegs x =>
    by_cases hb : outOfBounds s.I (blockLength x) = true
    · exact ⟨_, _, if_pos hb, if_pos hb, h.raise _ _ _⟩
    · exact ⟨_, _, if_neg hb, if_neg hb, ((h.writeRegs 0 _).writeI _).advance⟩

/-- Settles O42: the writes by the frame that every completion keeps, the reads by coupling two runs. -/
theorem registersFollowTheReadWriteTable : Obligations.RegistersFollowTheReadWriteTable := by
  refine ⟨fun i s t h => exec_keepsRegsBut h, fun i s s' t t' hs hr ht ht' => ?_⟩
  obtain ⟨W, rfl⟩ : ∃ W, s' = { s with V := W } := ⟨_, hs⟩
  obtain ⟨u, u', hu, hu', hc⟩ := exec_coupled i s W hr
  cases ht.symm.trans hu
  cases ht'.symm.trans hu'
  obtain ⟨W', rfl⟩ := hc.others
  exact ⟨rfl, rfl, rfl, rfl, rfl, rfl, hc.regs⟩

end Sys2Proof.Machine
end

section
/-! SUPPORT. The fetch and the program image port (spec/20_memory.md R52, R61, R62). -/

namespace Sys2Proof.Machine

/-! ## What STEP and LOAD return (R91, R204) -/

theorem State.report_of_running {s : State} (h : s.running) : s.report = .ok := by
  simp [State.report, h]

theorem State.report_of_faulted {s : State} (h : s.faulted = true) : s.report = .fault s.status := by
  simp [State.report, h]

/-! ## Fetch (R52) -/

/-- FADDR of an access range that begins at `a` (R55), in the form the statements write it. -/
theorem firstBadAddress_eq_ofNat_max (a : Word) :
    firstBadAddress a = BitVec.ofNat 16 (max a.toNat 0x1000) := by
  rw [← firstBadAddress_toNat, BitVec.ofNat_toNat, BitVec.setWidth_eq]

/-- With pc + 1 outside memory nothing is fetched: the step raises its fault on the state with the input
presented. -/
theorem stepWith_of_fetch_out_of_bounds {s : State} (r : Option Byte) (hs : s.running)
    (hp : 0xFFF < s.pc.toNat + 1) :
    stepWith r s = .next ((s.present r).raise .outOfBoundsAccess 0 (firstBadAddress s.pc)) := by
  obtain ⟨hf, -⟩ | ⟨-, -, e⟩ | ⟨-, hle, -⟩ | ⟨-, hle, -⟩ := stepWith_cases r s
  · exact absurd (hs.symm.trans hf) (by decide)
  · exact e
  · omega
  · omega

/-- Settles O9: the word is read from two bytes, and a fetch past 0xFFF only raises the fault. -/
theorem fetchIsBigEndianAndBounded : Obligations.FetchIsBigEndianAndBounded := by
  refine fun s => ⟨wordOfBytes_toNat _ _, fun hs hp r => ⟨_, stepWith_of_fetch_out_of_bounds r hs hp, ?_⟩⟩
  rw [← firstBadAddress_eq_ofNat_max]
  obtain ⟨hlatched, hkept, -, -⟩ := (s.present r).raise_entersFault .outOfBoundsAccess 0 (firstBadAddress s.pc)
  exact ⟨hlatched, hkept⟩

/-! ## LOAD (R61, R62) -/

section
variable {s : State} {bytes : List Byte}

theorem State.doLoad_of_length_le (hs : s.running) (hl : bytes.length ≤ loadMax) :
    s.doLoad bytes = s.writeBytes loadBase bytes := by
  obtain ⟨hf, -⟩ | ⟨-, hgt, -⟩ | ⟨-, -, e⟩ := s.doLoad_cases bytes
  · exact absurd (hs.symm.trans hf) (by decide)
  · omega
  · exact e

theorem State.doLoad_of_lt_length (hs : s.running) (hl : loadMax < bytes.length) :
    s.doLoad bytes = s.raise .outOfBoundsLoad 0 0x1000 := by
  obtain ⟨hf, -⟩ | ⟨-, -, e⟩ | ⟨-, hle, -⟩ := s.doLoad_cases bytes
  · exact absurd (hs.symm.trans hf) (by decide)
  · exact e
  · omega

theorem transact_load_of_length_le (hs : s.running) (hl : bytes.length ≤ loadMax) :
    transact (.load bytes) s = .next (s.writeBytes loadBase bytes, .ok) := by
  rw [transact, State.doLoad_of_length_le hs hl,
    State.report_of_running ((s.writeBytes_faulted _ _).trans hs)]

theorem transact_load_of_lt_length (hs : s.running) (hl : loadMax < bytes.length) :
    transact (.load bytes) s = .next (s.raise .outOfBoundsLoad 0 0x1000,
      .fault (s.raise .outOfBoundsLoad 0 0x1000).status) := by
  rw [transact, State.doLoad_of_lt_length hs hl, State.report_of_faulted (s.raise_faulted _ _ _)]

/-- A byte inside a block write reads as the byte of the block at its offset. -/
theorem State.writeBytes_readByte_add (hm : s.mem.wf) {a : Nat} (ha : a + bytes.length ≤ 0x1000) {k : Nat}
    (hk : k < bytes.length) : (s.writeBytes a bytes).readByte (a + k) = bytes.getD k 0 := by
  rw [s.writeBytes_readByte hm _ _ _ ha, if_pos (by omega), Nat.add_sub_cancel_left]

theorem State.writeBytes_keepsMemoryOutside (hm : s.mem.wf) {a : Nat} (ha : a + bytes.length ≤ 0x1000) :
    s.keepsMemoryOutside (s.writeBytes a bytes) a bytes.length := fun b hb => by
  rw [s.writeBytes_readByte hm _ _ _ ha, if_neg hb]

end

/-- Settles O17: LOAD of an image that fits is one block write from 0x200, and a block write changes only the
bytes it covers. -/
theorem loadCopiesTheImageTo0x200 : Obligations.LoadCopiesTheImageTo0x200 := by
  intro s bytes hm hs hl
  have hfits : 0x200 + bytes.length ≤ 0x1000 := by omega
  have hkeep : s.keepsControl (s.writeBytes 0x200 bytes) := ⟨rfl, rfl, rfl, rfl⟩
  refine ⟨s.writeBytes 0x200 bytes, transact_load_of_length_le hs hl,
    fun k hk => State.writeBytes_readByte_add hm hfits hk, State.writeBytes_keepsMemoryOutside hm hfits,
    fun _ => rfl, rfl, rfl, rfl, fun _ _ => rfl, hkeep, ?_⟩
  rintro rfl
  rfl

/-- Settles O18: LOAD of an image that does not fit is the fault and nothing else. -/
theorem oversizedImageIsRejected : Obligations.OversizedImageIsRejected := fun s _ hs hl =>
  ⟨_, transact_load_of_lt_length hs hl, s.raise_entersFault .outOfBoundsLoad 0 0x1000⟩

end Sys2Proof.Machine
end

section
/-! SUPPORT. The decoder against the formats and the opcode map (spec/30_encoding.md R72, R74, R77, R78): a word
as the concatenation of its fields, what the decoder answers on a word, and which words it rejects. -/

namespace Sys2Proof

/-! ## A word and its fields, per format (R72) -/

section
variable {w : Word}

theorem eq_nnnFormat_iff {op : Nibble} {nnn : Addr12} :
    w = op ++ nnn ↔ opField w = op ∧ nnnField w = nnn := by
  have := w.isLt
  simp only [← BitVec.toNat_inj, opField_toNat, nnnField_toNat, toNat_nnnFormat]
  omega

theorem eq_xkkFormat_iff {op x : Nibble} {kk : Byte} :
    w = op ++ x ++ kk ↔ opField w = op ∧ xField w = x ∧ kkField w = kk := by
  have := w.isLt
  simp only [← BitVec.toNat_inj, opField_toNat, xField_toNat, kkField_toNat, toNat_xkkFormat]
  omega

theorem eq_xynFormat_iff {op x y n : Nibble} :
    w = op ++ x ++ y ++ n ↔ opField w = op ∧ xField w = x ∧ yField w = y ∧ nField w = n := by
  have := w.isLt
  simp only [← BitVec.toNat_inj, opField_toNat, xField_toNat, yField_toNat, nField_toNat, toNat_xynFormat]
  omega

theorem eq_zeroFormat_iff {op n : Nibble} {mid : Byte} :
    w = op ++ mid ++ n ↔ opField w = op ∧ midField w = mid ∧ nField w = n := by
  have := w.isLt
  simp only [← BitVec.toNat_inj, opField_toNat, midField_toNat, nField_toNat, toNat_zeroFormat]
  omega

end

@[simp] theorem fields_nnnFormat (op : Nibble) (nnn : Addr12) :
    opField (op ++ nnn) = op ∧ nnnField (op ++ nnn) = nnn :=
  eq_nnnFormat_iff.1 rfl

@[simp] theorem fields_xkkFormat (op x : Nibble) (kk : Byte) :
    opField (op ++ x ++ kk) = op ∧ xField (op ++ x ++ kk) = x ∧ kkField (op ++ x ++ kk) = kk :=
  eq_xkkFormat_iff.1 rfl

@[simp] theorem fields_xynFormat (op x y n : Nibble) :
    opField (op ++ x ++ y ++ n) = op ∧ xField (op ++ x ++ y ++ n) = x ∧
      yField (op ++ x ++ y ++ n) = y ∧ nField (op ++ x ++ y ++ n) = n :=
  eq_xynFormat_iff.1 rfl

@[simp] theorem fields_zeroFormat (op n : Nibble) (mid : Byte) :
    opField (op ++ mid ++ n) = op ∧ midField (op ++ mid ++ n) = mid ∧ nField (op ++ mid ++ n) = n :=
  eq_zeroFormat_iff.1 rfl

/-! ## What the decoder answers is faithful to the word (R74) -/

/-- A decoder's answer for `w` drops nothing of it: an instruction of the build whose word is `w`, or a
rejection that carries `w`. -/
def Decoded.Faithful (c : Config) (w : Word) : Decoded → Prop
  | .instr i => i.wellFormed c = true ∧ w = encode i
  | .unsupportedOpcode v => v = w

section
variable {c : Config} {w : Word}

theorem middleOk_of_lowNibble (hz : c.zeroGroupDecode = .lowNibble) (i : Instr) : i.middleOk c = true := by
  cases i <;> simp [Instr.middleOk, hz]

theorem middleOk_cls_0E (c : Config) : (Instr.cls 0x0E).middleOk c = true := by simp [Instr.middleOk]

theorem middleOk_ret_0E (c : Config) : (Instr.ret 0x0E).middleOk c = true := by simp [Instr.middleOk]

theorem Decoded.Faithful.of_both {i : Instr} (he : i.extendedOnly = false) (hm : i.middleOk c = true)
    (hw : w = encode i) : (Decoded.instr i).Faithful c w :=
  ⟨by simp [Instr.wellFormed, Instr.inProfile, he, hm], hw⟩

theorem Decoded.Faithful.of_extended {i : Instr} (hc : c.profile = .extended) (hm : i.middleOk c = true)
    (hw : w = encode i) : (Decoded.instr i).Faithful c w :=
  ⟨by simp [Instr.wellFormed, Instr.inProfile, hc, hm], hw⟩

/-- The decoder is a chain of tests, so faithfulness is shown test by test. -/
theorem Decoded.Faithful.ite {p : Prop} [Decidable p] {d e : Decoded} (hd : p → d.Faithful c w)
    (he : e.Faithful c w) : (if p then d else e).Faithful c w := by
  split
  · exact hd ‹p›
  · exact he

theorem decodeZeroGroup_faithful (hop : opField w = 0x0) : (decodeZeroGroup c w).Faithful c w := by
  unfold decodeZeroGroup
  split
  case h_1 =>
    refine .ite ?_ (.ite ?_ rfl) <;> rintro rfl
    · exact .of_both rfl (middleOk_cls_0E c) rfl
    · exact .of_both rfl (middleOk_ret_0E c) rfl
  case h_2 hz =>
    have hmid := middleOk_of_lowNibble hz
    exact .ite (fun hn => .of_both rfl (hmid _) (eq_zeroFormat_iff.2 ⟨hop, rfl, hn⟩)) <|
      .ite (fun hn => .of_both rfl (hmid _) (eq_zeroFormat_iff.2 ⟨hop, rfl, hn⟩)) rfl

theorem decodeAluGroup_faithful (h : opField w = 0x8 ∧ c.profile = .extended) :
    (decodeAluGroup w).Faithful c w := by
  unfold decodeAluGroup
  iterate 6
    refine .ite (fun hn => .of_extended h.2 rfl (eq_xynFormat_iff.2 ⟨h.1, rfl, rfl, hn⟩)) ?_
  rfl

theorem decodeBlockGroup_faithful (h : opField w = 0xF ∧ c.profile = .extended) :
    (decodeBlockGroup w).Faithful c w := by
  unfold decodeBlockGroup
  iterate 2
    refine .ite (fun hk => .of_extended h.2 rfl (eq_xkkFormat_iff.2 ⟨h.1, rfl, hk⟩)) ?_
  rfl

/-- R74: a decoder that drops no bit, group by group. -/
theorem decode_faithful (c : Config) (w : Word) : (decode c w).Faithful c w :=
  .ite decodeZeroGroup_faithful <|
  .ite (fun hop => .of_both rfl rfl (eq_nnnFormat_iff.2 ⟨hop, rfl⟩)) <|
  .ite (fun hop => .of_extended hop.2 rfl (eq_nnnFormat_iff.2 ⟨hop.1, rfl⟩)) <|
  .ite (fun hop => .of_both rfl rfl (eq_xkkFormat_iff.2 ⟨hop, rfl, rfl⟩)) <|
  .ite (fun hop => .of_both rfl rfl (eq_xkkFormat_iff.2 ⟨hop, rfl, rfl⟩)) <|
  .ite (fun hop => .of_both rfl rfl (eq_xkkFormat_iff.2 ⟨hop, rfl, rfl⟩)) <|
  .ite decodeAluGroup_faithful <|
  .ite (fun hop => .of_both rfl rfl (eq_nnnFormat_iff.2 ⟨hop, rfl⟩)) <|
  .ite (fun hop => .of_both rfl rfl (eq_xkkFormat_iff.2 ⟨hop, rfl, rfl⟩)) <|
  .ite (fun hop => .of_both rfl rfl (eq_xynFormat_iff.2 ⟨hop, rfl, rfl, rfl⟩)) <|
  .ite decodeBlockGroup_faithful rfl

/-- A rejection carries the word (R74). -/
theorem eq_of_decode_eq_unsupportedOpcode {v : Word} (h : decode c w = .unsupportedOpcode v) : v = w := by
  have hf := decode_faithful c w
  rwa [h] at hf

/-! ## The decoder undoes the encoder (R84) -/

/-- The 0x0 group: the two exact words under `EXACT`, any middle byte under `LOW_NIBBLE` (R75). -/
theorem decode_encode_of_zeroGroup {mid : Byte} {i : Instr} (hi : i = .cls mid ∨ i = .ret mid)
    (h : i.middleOk c = true) : decode c (encode i) = .instr i := by
  cases hz : c.zeroGroupDecode with
  | exact =>
    obtain rfl : mid = 0x0E := by rcases hi with rfl | rfl <;> simpa [Instr.middleOk, hz] using h
    have hop : opField (encode (.cls 0x0E)) = 0x0 ∧ opField (encode (.ret 0x0E)) = 0x0 := by decide
    rcases hi with rfl | rfl
    · rw [decode, if_pos hop.1, decodeZeroGroup, hz]
      rfl
    · rw [decode, if_pos hop.2, decodeZeroGroup, hz]
      rfl
  | lowNibble => rcases hi with rfl | rfl <;> simp [decode, decodeZeroGroup, hz, encode]

/-- Every instruction of a build comes back from its word, whatever its operands. -/
theorem decode_encode {i : Instr} (h : i.wellFormed c = true) : decode c (encode i) = .instr i := by
  obtain ⟨hprofile, hmid⟩ := Bool.and_eq_true_iff.1 h
  have hc : i.extendedOnly = true → c.profile = .extended := fun he => by
    simpa [Instr.inProfile, he] using hprofile
  cases i with
  | cls => exact decode_encode_of_zeroGroup (.inl rfl) hmid
  | ret => exact decode_encode_of_zeroGroup (.inr rfl) hmid
  | jp | seByte | ldByte | addByte | ldI | rnd | drw => simp [decode, encode]
  | call => simp [decode, encode, hc rfl]
  | orReg | andReg | xorReg | addReg | shr | shl => simp [decode, decodeAluGroup, encode, hc rfl]
  | storeRegs | loadRegs => simp [decode, decodeBlockGroup, encode, hc rfl]

/-- The decoder and the encoder are inverse on the instructions of a build. -/
theorem decode_eq_instr_iff {i : Instr} : decode c w = .instr i ↔ i.wellFormed c = true ∧ w = encode i := by
  constructor
  · intro hd
    have hf := decode_faithful c w
    rwa [hd] at hf
  · rintro ⟨hwf, rfl⟩
    exact decode_encode hwf

end

/-- Settles O3: the decoder's answer is faithful, and the decoder undoes the encoder, so no instruction has a
rejected word. -/
theorem encodeOfDecodeIsTheWord : Obligations.EncodeOfDecodeIsTheWord := by
  intro c w
  refine ⟨fun i hd => ?_, fun v hd => ⟨eq_of_decode_eq_unsupportedOpcode hd, fun i hwf hw => ?_⟩⟩
  · obtain ⟨hwf, hw⟩ := decode_eq_instr_iff.1 hd
    exact ⟨hwf, hw.symm⟩
  · cases hd.symm.trans (decode_eq_instr_iff.2 ⟨hwf, hw.symm⟩)

/-! ## The opcode map (R77) -/

section
variable {c : Config} {w : Word} {r : OpcodeRow}

/-- A field that a row's mask covers has in every word of the row the value it has in the row's match. -/
theorem extractLsb'_eq_of_matchesWord (h : r.matchesWord w = true) (start len : Nat)
    (hmask : r.mask.extractLsb' start len = BitVec.allOnes len) :
    w.extractLsb' start len = r.value.extractLsb' start len := by
  have hw : w &&& r.mask = r.value := beq_iff_eq.1 h
  rw [← hw, BitVec.extractLsb'_and, hmask, BitVec.and_allOnes]

theorem eq_value_of_matchesWord (h : r.matchesWord w = true) (hmask : r.mask = BitVec.allOnes 16) :
    w = r.value := by
  have hw : w &&& r.mask = r.value := beq_iff_eq.1 h
  rw [← hw, hmask, BitVec.and_allOnes]

/-- The row stands for an instruction of `c` of its name, whose word is `w`. -/
def OpcodeRow.Encodes (r : OpcodeRow) (c : Config) (w : Word) : Prop :=
  ∃ i : Instr, (Decoded.instr i).Faithful c w ∧ i.mnemonic = r.mnemonic

theorem encodes_of_zeroGroupRow (hr : r ∈ zeroGroupRows c.zeroGroupDecode) (h : r.matchesWord w = true) :
    r.Encodes c w := by
  cases hz : c.zeroGroupDecode with
  | exact =>
    simp only [hz, zeroGroupRows, List.mem_cons, List.not_mem_nil, or_false] at hr
    rcases hr with rfl | rfl <;> have hw := eq_value_of_matchesWord h rfl
    · exact ⟨.cls 0x0E, .of_both rfl (middleOk_cls_0E c) hw, rfl⟩
    · exact ⟨.ret 0x0E, .of_both rfl (middleOk_ret_0E c) hw, rfl⟩
  | lowNibble =>
    have hmid := middleOk_of_lowNibble hz
    simp only [hz, zeroGroupRows, List.mem_cons, List.not_mem_nil, or_false] at hr
    rcases hr with rfl | rfl <;>
      have hop := extractLsb'_eq_of_matchesWord h 12 4 rfl <;>
      have hn := extractLsb'_eq_of_matchesWord h 0 4 rfl
    · exact ⟨.cls _, .of_both rfl (hmid _) (eq_zeroFormat_iff.2 ⟨hop, rfl, hn⟩), rfl⟩
    · exact ⟨.ret _, .of_both rfl (hmid _) (eq_zeroFormat_iff.2 ⟨hop, rfl, hn⟩), rfl⟩

theorem encodes_of_lowRow (hr : r ∈ lowRows) (hc : r.extendedOnly = true → c.profile = .extended)
    (h : r.matchesWord w = true) : r.Encodes c w := by
  simp only [lowRows, List.mem_cons, List.not_mem_nil, or_false] at hr
  rcases hr with rfl | rfl | rfl | rfl | rfl <;>
    have hop := extractLsb'_eq_of_matchesWord h 12 4 rfl
  · exact ⟨.jp _, .of_both rfl rfl (eq_nnnFormat_iff.2 ⟨hop, rfl⟩), rfl⟩
  · exact ⟨.call _, .of_extended (hc rfl) rfl (eq_nnnFormat_iff.2 ⟨hop, rfl⟩), rfl⟩
  · exact ⟨.seByte _ _, .of_both rfl rfl (eq_xkkFormat_iff.2 ⟨hop, rfl, rfl⟩), rfl⟩
  · exact ⟨.ldByte _ _, .of_both rfl rfl (eq_xkkFormat_iff.2 ⟨hop, rfl, rfl⟩), rfl⟩
  · exact ⟨.addByte _ _, .of_both rfl rfl (eq_xkkFormat_iff.2 ⟨hop, rfl, rfl⟩), rfl⟩

theorem encodes_of_aluRow (hr : r ∈ aluRows) (hc : r.extendedOnly = true → c.profile = .extended)
    (h : r.matchesWord w = true) : r.Encodes c w := by
  simp only [aluRows, List.mem_cons, List.not_mem_nil, or_false] at hr
  rcases hr with rfl | rfl | rfl | rfl | rfl | rfl <;>
    have hop := extractLsb'_eq_of_matchesWord h 12 4 rfl <;>
    have hn := extractLsb'_eq_of_matchesWord h 0 4 rfl
  · exact ⟨.orReg _ _, .of_extended (hc rfl) rfl (eq_xynFormat_iff.2 ⟨hop, rfl, rfl, hn⟩), rfl⟩
  · exact ⟨.andReg _ _, .of_extended (hc rfl) rfl (eq_xynFormat_iff.2 ⟨hop, rfl, rfl, hn⟩), rfl⟩
  · exact ⟨.xorReg _ _, .of_extended (hc rfl) rfl (eq_xynFormat_iff.2 ⟨hop, rfl, rfl, hn⟩), rfl⟩
  · exact ⟨.addReg _ _, .of_extended (hc rfl) rfl (eq_xynFormat_iff.2 ⟨hop, rfl, rfl, hn⟩), rfl⟩
  · exact ⟨.shr _ _, .of_extended (hc rfl) rfl (eq_xynFormat_iff.2 ⟨hop, rfl, rfl, hn⟩), rfl⟩
  · exact ⟨.shl _ _, .of_extended (hc rfl) rfl (eq_xynFormat_iff.2 ⟨hop, rfl, rfl, hn⟩), rfl⟩

theorem encodes_of_highRow (hr : r ∈ highRows) (hc : r.extendedOnly = true → c.profile = .extended)
    (h : r.matchesWord w = true) : r.Encodes c w := by
  simp only [highRows, List.mem_cons, List.not_mem_nil, or_false] at hr
  rcases hr with rfl | rfl | rfl | rfl | rfl <;>
    have hop := extractLsb'_eq_of_matchesWord h 12 4 rfl
  · exact ⟨.ldI _, .of_both rfl rfl (eq_nnnFormat_iff.2 ⟨hop, rfl⟩), rfl⟩
  · exact ⟨.rnd _ _, .of_both rfl rfl (eq_xkkFormat_iff.2 ⟨hop, rfl, rfl⟩), rfl⟩
  · exact ⟨.drw _ _ _, .of_both rfl rfl (eq_xynFormat_iff.2 ⟨hop, rfl, rfl, rfl⟩), rfl⟩
  · have hkk := extractLsb'_eq_of_matchesWord h 0 8 rfl
    exact ⟨.storeRegs _, .of_extended (hc rfl) rfl (eq_xkkFormat_iff.2 ⟨hop, rfl, hkk⟩), rfl⟩
  · have hkk := extractLsb'_eq_of_matchesWord h 0 8 rfl
    exact ⟨.loadRegs _, .of_extended (hc rfl) rfl (eq_xkkFormat_iff.2 ⟨hop, rfl, hkk⟩), rfl⟩

theorem mem_opcodeMap_iff : r ∈ opcodeMap c ↔
    (r ∈ zeroGroupRows c.zeroGroupDecode ∨ r ∈ lowRows ∨ r ∈ aluRows ∨ r ∈ highRows) ∧
      (r.extendedOnly = true → c.profile = .extended) := by
  simp only [opcodeMap, List.mem_filter, List.mem_append, or_assoc]
  cases r.extendedOnly <;> simp

theorem decode_of_matchesWord (hr : r ∈ opcodeMap c) (h : r.matchesWord w = true) :
    ∃ i, decode c w = .instr i ∧ i.mnemonic = r.mnemonic := by
  obtain ⟨hrow, hc⟩ := mem_opcodeMap_iff.1 hr
  have henc : r.Encodes c w := by
    rcases hrow with hr | hr | hr | hr
    · exact encodes_of_zeroGroupRow hr h
    · exact encodes_of_lowRow hr hc h
    · exact encodes_of_aluRow hr hc h
    · exact encodes_of_highRow hr hc h
  obtain ⟨i, hi, hname⟩ := henc
  exact ⟨i, decode_eq_instr_iff.2 hi, hname⟩

/-- The rows of the map cover every instruction. -/
theorem encode_matches_own_row (i : Instr) : Laws.TableRow.Statement i := by
  cases i with
  | cls => exact Laws.TableRow.cls _
  | ret => exact Laws.TableRow.ret _
  | jp => exact Laws.TableRow.jp _
  | call => exact Laws.TableRow.call _
  | seByte => exact Laws.TableRow.seByte _ _
  | ldByte => exact Laws.TableRow.ldByte _ _
  | addByte => exact Laws.TableRow.addByte _ _
  | orReg => exact Laws.TableRow.orReg _ _
  | andReg => exact Laws.TableRow.andReg _ _
  | xorReg => exact Laws.TableRow.xorReg _ _
  | addReg => exact Laws.TableRow.addReg _ _
  | shr => exact Laws.TableRow.shr _ _
  | shl => exact Laws.TableRow.shl _ _
  | ldI => exact Laws.TableRow.ldI _
  | rnd => exact Laws.TableRow.rnd _ _
  | drw => exact Laws.TableRow.drw _ _ _
  | storeRegs => exact Laws.TableRow.storeRegs _
  | loadRegs => exact Laws.TableRow.loadRegs _

theorem exists_row_of_decode {i : Instr} (hd : decode c w = .instr i) :
    ∃ r ∈ opcodeMap c, r.matchesWord w = true ∧ r.mnemonic = i.mnemonic := by
  obtain ⟨hwf, rfl⟩ := decode_eq_instr_iff.1 hd
  obtain ⟨r, hr, hname, -, hmatch⟩ := encode_matches_own_row i c hwf
  exact ⟨r, hr, hmatch, hname⟩

/-- No two rows of a build's map have one name. -/
theorem opcodeMap_mnemonics_nodup (c : Config) : ((opcodeMap c).map OpcodeRow.mnemonic).Nodup := by
  have hall : ∀ z, ((zeroGroupRows z ++ lowRows ++ aluRows ++ highRows).map OpcodeRow.mnemonic).Nodup := by
    intro z
    cases z <;> decide
  exact (hall c.zeroGroupDecode).sublist (List.filter_sublist.map _)

end

/-- Settles O4: a row's word is the word of an instruction of its name, so the decoder gives that instruction,
and rows that share a word share the name. -/
theorem opcodeMapIsExclusiveAndTheDecoderAgrees : Obligations.OpcodeMapIsExclusiveAndTheDecoderAgrees := by
  refine fun c w => ⟨fun r hr q hq hrw hqw => ?_, fun r => decode_of_matchesWord, fun i => exists_row_of_decode⟩
  obtain ⟨i, hi, hir⟩ := decode_of_matchesWord hr hrw
  obtain ⟨j, hj, hjq⟩ := decode_of_matchesWord hq hqw
  obtain rfl : i = j := Decoded.instr.inj (hi.symm.trans hj)
  exact List.inj_on_of_nodup_map (opcodeMap_mnemonics_nodup c) hr hq (hir.symm.trans hjq)

/-! ## Illegal words (R78) -/

section
variable {c : Config} {w : Word}

/-- The values of `op` under which a profile has no instruction at all. -/
def unassignedOps : Profile → List Nibble
  | .source => [0x2#4, 0x4#4, 0x5#4, 0x8#4, 0x9#4, 0xB#4, 0xE#4, 0xF#4]
  | .extended => [0x4#4, 0x5#4, 0x9#4, 0xB#4, 0xE#4]

theorem nibble_mem_all : ∀ op : Nibble,
    op ∈ [0x0#4, 0x1#4, 0x2#4, 0x3#4, 0x4#4, 0x5#4, 0x6#4, 0x7#4, 0x8#4, 0x9#4, 0xA#4, 0xB#4, 0xC#4, 0xD#4,
      0xE#4, 0xF#4] := by
  decide

/-- A test that answers an instruction fails on a rejected word. -/
theorem ite_instr_rejects_iff {p : Prop} [Decidable p] {i : Instr} {d : Decoded} :
    (if p then .instr i else d) = .unsupportedOpcode w ↔ ¬p ∧ d = .unsupportedOpcode w := by
  by_cases hp : p <;> simp [hp]

theorem decodeZeroGroup_rejects_iff (hz : c.zeroGroupDecode = .exact) :
    decodeZeroGroup c w = .unsupportedOpcode w ↔ w ≠ 0x00E0 ∧ w ≠ 0x00EE := by
  simp [decodeZeroGroup, hz, ite_instr_rejects_iff]

theorem decodeAluGroup_rejects_iff :
    decodeAluGroup w = .unsupportedOpcode w ↔ nField w ∉ [0x1#4, 0x2#4, 0x3#4, 0x4#4, 0x6#4, 0xE#4] := by
  simp [decodeAluGroup, ite_instr_rejects_iff]

theorem decodeBlockGroup_rejects_iff :
    decodeBlockGroup w = .unsupportedOpcode w ↔ kkField w ∉ [0x55#8, 0x65#8] := by
  simp [decodeBlockGroup, ite_instr_rejects_iff]

/-- A word is rejected by its group, or because its profile has no instruction under its `op`. -/
theorem decode_rejects_iff (c : Config) (w : Word) : decode c w = .unsupportedOpcode w ↔
    (opField w = 0x0 ∧ decodeZeroGroup c w = .unsupportedOpcode w) ∨
    opField w ∈ unassignedOps c.profile ∨
    (c.profile = .extended ∧ (opField w = 0x8 ∧ decodeAluGroup w = .unsupportedOpcode w ∨
      opField w = 0xF ∧ decodeBlockGroup w = .unsupportedOpcode w)) := by
  have hop := nibble_mem_all (opField w)
  simp only [List.mem_cons, List.not_mem_nil, or_false] at hop
  -- under each value of `op` the decoder reduces to one branch
  cases hp : c.profile
  all_goals
    rcases hop with h | h | h | h | h | h | h | h | h | h | h | h | h | h | h | h
    all_goals simp [decode, unassignedOps, h, hp]

/-- The decoder has no instruction beyond the rows of the map (R78). -/
theorem decode_eq_unsupportedOpcode_of_no_row (h : ∀ r ∈ opcodeMap c, r.matchesWord w = false) :
    decode c w = .unsupportedOpcode w := by
  cases hd : decode c w with
  | unsupportedOpcode v => rw [eq_of_decode_eq_unsupportedOpcode hd]
  | instr i =>
    obtain ⟨r, hr, hmatch, -⟩ := exists_row_of_decode hd
    cases (h r hr).symm.trans hmatch

end

end Sys2Proof
end

section
/-! SUPPORT. A STEP that fetches an illegal word (spec/30_encoding.md R78, spec/60_exceptions.md R208). -/

namespace Sys2Proof.Machine

/-- A rejected word raises its fault on the state with the input presented. -/
theorem stepWith_of_rejected {s : State} {w : Word} (r : Option Byte) (hs : s.running) (hp : s.pc.toNat ≤ 0xFFE)
    (hd : decode s.cfg s.fetchWord = .unsupportedOpcode w) :
    stepWith r s = .next ((s.present r).raise .unsupportedOpcode w 0) := by
  obtain ⟨hf, -⟩ | ⟨-, hge, -⟩ | ⟨-, -, v, hv, e⟩ | ⟨-, -, i, hi, -⟩ := stepWith_cases r s
  · exact absurd (hs.symm.trans hf) (by decide)
  · omega
  · cases hd.symm.trans hv
    exact e
  · cases hd.symm.trans hi

theorem transact_step_of_rejected {s : State} {w : Word} (r : Byte) (hs : s.running) (hp : s.pc.toNat ≤ 0xFFE)
    (hd : decode s.cfg s.fetchWord = .unsupportedOpcode w) :
    ∃ t, transact (.step r) s = .next (t, .fault t.status) ∧ t.latched .unsupportedOpcode w s.pc 0 ∧
      s.keepsAllButStatus t := by
  obtain ⟨hlatched, hkept, -, -⟩ := (s.present (some r)).raise_entersFault .unsupportedOpcode w 0
  refine ⟨_, ?_, hlatched, hkept⟩
  rw [transact, stepWith_of_rejected _ hs hp hd, withReport, State.report_of_faulted hlatched.1]

/-- Settles O5: the listed words are those each group and each profile rejects, and a word that no row matches is
no instruction's word, so a STEP that fetches it only raises the fault. -/
theorem illegalWordsAreRejected : Obligations.IllegalWordsAreRejected := by
  intro c w
  refine ⟨fun hp hz => ?_, fun hp hz => ?_, fun hz => ?_, fun hz => ?_, ?_, fun hno => ?_⟩
  · rw [decode_rejects_iff, decodeZeroGroup_rejects_iff hz, hp, unassignedOps]
    simp only [reduceCtorEq, false_and, or_false]
  · rw [decode_rejects_iff, decodeZeroGroup_rejects_iff hz, decodeAluGroup_rejects_iff,
      decodeBlockGroup_rejects_iff, hp, unassignedOps]
    simp only [true_and]
  · exact (decode_rejects_iff c _).2 (.inl ⟨rfl, (decodeZeroGroup_rejects_iff hz).2 (by decide)⟩)
  · exact decode_eq_instr_iff.2 (Decoded.Faithful.of_both rfl (middleOk_of_lowNibble hz _) rfl)
  · rw [decode_rejects_iff]
    cases hp : c.profile with
    | source => exact .inr (.inl (by decide))
    | extended => exact .inr (.inr ⟨rfl, .inr ⟨rfl, decodeBlockGroup_rejects_iff.2 (by decide)⟩⟩)
  · have hd := decode_eq_unsupportedOpcode_of_no_row hno
    refine ⟨hd, fun s r hc hs hpc hw => transact_step_of_rejected r hs hpc ?_⟩
    rw [hc, hw, hd]

end Sys2Proof.Machine
end

section
/-! SUPPORT. The STEP transaction (spec/40_step.md R91, R92): the one check that decides a step, and what the
host is answered. -/

namespace Sys2Proof.Machine

/-! ## The step, case by case -/

section
variable {s t : State} (r : Option Byte)

theorem stepWith_of_faulted (hf : s.faulted = true) : stepWith r s = .next s := if_pos hf

/-- A decoded word's handler runs on the state with the input presented. -/
theorem stepWith_of_decoded {i : Instr} (hs : s.running) (hp : s.pc.toNat ≤ 0xFFE)
    (hd : decode s.cfg s.fetchWord = .instr i) : stepWith r s = exec i (s.present r) := by
  obtain ⟨hf, -⟩ | ⟨-, hge, -⟩ | ⟨-, -, w, hw, -⟩ | ⟨-, -, j, hj, e⟩ := stepWith_cases r s
  · exact absurd (hs.symm.trans hf) (by decide)
  · omega
  · cases hd.symm.trans hw
  · cases hd.symm.trans hj
    exact e

theorem exec_answers (i : Instr) (s : State) : ∃ t, exec i s = .next t := by
  obtain ⟨_, _, _, e⟩ | ⟨_, e, -⟩ := exec_cases i s <;> exact ⟨_, e⟩

theorem stepWith_answers (s : State) : ∃ t, stepWith r s = .next t := by
  obtain ⟨-, e⟩ | ⟨-, -, e⟩ | ⟨-, -, w, -, e⟩ | ⟨-, -, i, -, e⟩ := stepWith_cases r s
  case inr.inr.inr => exact e ▸ exec_answers i (s.present r)
  all_goals exact ⟨_, e⟩

/-- Fetch past 0xFFF: fault entry with opcode 0 (R52, R92). -/
theorem entersFault_of_fetch_out_of_bounds (h : stepWith r s = .next t) (hs : s.running)
    (hp : 0xFFF < s.pc.toNat + 1) :
    (s.present r).entersFault t .outOfBoundsAccess 0 (BitVec.ofNat 16 (max s.pc.toNat 0x1000)) := by
  cases h.symm.trans (stepWith_of_fetch_out_of_bounds r hs hp)
  rw [← firstBadAddress_eq_ofNat_max]
  exact State.raise_entersFault _ _ _ _

/-- A rejected word: fault entry with the fetched word as opcode and no address (R92). -/
theorem entersFault_of_rejected {w : Word} (h : stepWith r s = .next t) (hs : s.running)
    (hp : s.pc.toNat ≤ 0xFFE) (hd : decode s.cfg s.fetchWord = .unsupportedOpcode w) :
    (s.present r).entersFault t .unsupportedOpcode s.fetchWord 0 := by
  cases h.symm.trans (stepWith_of_rejected r hs hp hd)
  rw [← eq_of_decode_eq_unsupportedOpcode hd]
  exact State.raise_entersFault _ _ _ _

end

/-- The transaction adds only the report of the state that the step leaves (R91). -/
theorem transact_step {s t : State} {r : Byte} (h : stepWith (some r) s = .next t) :
    transact (.step r) s = .next (t, t.report) := by
  rw [transact, h, withReport]

/-- Settles O7: every step answers a state, the response is that state's report, and each check of the cycle
that decides the step also names the state. -/
theorem stepTransactionFollowsTheCycle : Obligations.StepTransactionFollowsTheCycle := by
  intro s r
  obtain ⟨t, h⟩ := stepWith_answers (some r) s
  refine ⟨t, t.report, transact_step h, State.report_of_faulted, State.report_of_running, fun hf => ?_,
    entersFault_of_fetch_out_of_bounds _ h, fun hs hp => ?_⟩
  · exact Host.Outcome.next.inj (h.symm.trans (stepWith_of_faulted _ hf))
  · have hle : s.pc.toNat ≤ 0xFFE := by omega
    exact ⟨fun w hd => entersFault_of_rejected _ h hs hle hd,
      fun i hd => (stepWith_of_decoded _ hs hle hd).symm.trans h⟩

end Sys2Proof.Machine
end

section
/-! SUPPORT. The display (spec/41_display.md R110 to R115): FB_READ, CLS, and DRW as the one inversion of the cells
that its sprite covers. -/

namespace Sys2Proof.Machine

/-- A row of R77 that both profiles have, and that `ZERO_GROUP_DECODE` does not change for this word, is decoded
by every build. -/
theorem decodesInBoth_of_eq_encode {w : Word} {i : Instr} (he : i.extendedOnly = false)
    (hm : ∀ c, i.middleOk c = true) (hw : w = encode i) : decodesInBoth w i := fun c =>
  decode_eq_instr_iff.2 (Decoded.Faithful.of_both he (hm c) hw)

/-! ## FB_READ (R110) -/

@[simp] theorem State.fbCells_length (s : State) : s.fbCells.length = 2048 := by
  simp [State.fbCells]

theorem State.fbCells_getD (s : State) {k : Nat} (hk : k < 2048) :
    s.fbCells.getD k 0 = BitVec.ofBool (s.FB.cell (k % 64) (k / 64)) := by
  simp [State.fbCells, List.getD, hk]

/-- Settles O19: FB_READ answers the 2048 cells in the order of R110 and leaves the state. -/
theorem framebufferReadIsRowByRow : Obligations.FramebufferReadIsRowByRow := by
  refine fun s => ⟨s.fbCells, rfl, s.fbCells_length, fun k hk => ?_⟩
  rw [s.fbCells_getD hk]
  cases s.FB.cell (k % 64) (k / 64) <;> rfl

/-! ## CLS (R111) -/

/-- Settles O20: CLS only replaces the framebuffer by the clear one and advances pc. -/
theorem clsClearsEveryCell : Obligations.ClsClearsEveryCell := by
  refine ⟨decodesInBoth_of_eq_encode rfl middleOk_cls_0E rfl, fun c mid hz => ?_, fun mid s => ?_⟩
  · exact decode_encode_of_zeroGroup (i := .cls mid) (.inl rfl) (middleOk_of_lowNibble hz _)
  · have hc : Completes (.cls mid) s (s.writeFB Framebuffer.clear).advance :=
      .of_advance rfl ⟨rfl, rfl, rfl, rfl⟩ rfl (.refl s _)
    exact ⟨_, rfl, Framebuffer.clear_cell, hc.pc, fun _ => rfl, fun _ => rfl, rfl, rfl, hc.control⟩

/-! ## Drawing as an inversion of cells -/

/-- `q` is what drawing on the cells of `P` makes of `p`: exactly these cells are inverted, and the collision so
far is joined by a cell of `P` that was 1 (R112, R115). -/
structure Draws (P : Nat → Nat → Prop) (p q : Framebuffer × Bool) : Prop where
  inverted : ∀ u v, u < 64 → v < 32 → P u v → q.1.cell u v = !p.1.cell u v
  kept : ∀ u v, u < 64 → v < 32 → ¬ P u v → q.1.cell u v = p.1.cell u v
  hit : q.2 = true ↔ p.2 = true ∨ ∃ u v, u < 64 ∧ v < 32 ∧ P u v ∧ p.1.cell u v = true

section
variable {P Q : Nat → Nat → Prop} {p q r : Framebuffer × Bool}

theorem Draws.congr (h : Draws P p q) (hPQ : ∀ u v, Q u v ↔ P u v) : Draws Q p q := by
  obtain rfl : Q = P := funext₂ fun u v => propext (hPQ u v)
  exact h

theorem Draws.of_no_cell (hP : ∀ u v, ¬ P u v) (p : Framebuffer × Bool) : Draws P p p where
  inverted u v _ _ h := absurd h (hP u v)
  kept _ _ _ _ _ := rfl
  hit := by simp [hP]

/-- Two draws that share no cell are one draw on the cells of both: the second finds its own cells as the first
did. -/
theorem Draws.trans (h : Draws P p q) (h' : Draws Q q r) (hdisj : ∀ u v, P u v → ¬ Q u v) :
    Draws (fun u v => P u v ∨ Q u v) p r where
  inverted u v hu hv hPQ := by
    rcases hPQ with hP | hQ
    · rw [h'.kept u v hu hv (hdisj u v hP), h.inverted u v hu hv hP]
    · rw [h'.inverted u v hu hv hQ, h.kept u v hu hv fun hP => hdisj u v hP hQ]
  kept u v hu hv hPQ := by
    obtain ⟨hP, hQ⟩ := not_or.1 hPQ
    rw [h'.kept u v hu hv hQ, h.kept u v hu hv hP]
  hit := by
    have hQ : (∃ u v, u < 64 ∧ v < 32 ∧ Q u v ∧ q.1.cell u v = true) ↔
        ∃ u v, u < 64 ∧ v < 32 ∧ Q u v ∧ p.1.cell u v = true := by
      refine exists₂_congr fun u v => and_congr_right fun hu => and_congr_right fun hv =>
        and_congr_right fun hQ => ?_
      rw [h.kept u v hu hv fun hP => hdisj u v hP hQ]
    rw [h'.hit, hQ, h.hit, or_assoc]
    simp only [or_and_right, and_or_left, exists_or]

end

/-! ## The sprite, column by column and row by row (R112 to R115) -/

/-- Column `col` of the row `b` drawn at x has a 1-bit that lands on column `u`. -/
def columnCovers (b : Byte) (x col u : Nat) : Prop := b.getLsbD (7 - col) = true ∧ (x + col) % 64 = u

/-- A 1-bit of the row `b` drawn at x lands on column `u`. -/
def rowCovers (b : Byte) (x u : Nat) : Prop := ∃ col, col < 8 ∧ columnCovers b x col u

/-- A 1-bit of the sprite drawn at (x, y) lands on cell (u, v). -/
def bytesCover (sprite : List Byte) (x y u v : Nat) : Prop :=
  ∃ row, row < sprite.length ∧ rowCovers (sprite.getD row 0) x u ∧ (y + row) % 32 = v

theorem Framebuffer.cell_mod (fb : Framebuffer) (x y : Nat) : fb.cell (x % 64) (y % 32) = fb.cell x y := by
  simp [Framebuffer.cell]

theorem drawColumn_draws (b : Byte) (x y : Nat) (p : Framebuffer × Bool) (col : Nat) :
    Draws (fun u v => columnCovers b x col u ∧ y % 32 = v) p (drawColumn b x y p col) where
  inverted u v hu hv h := by
    obtain ⟨⟨hbit, rfl⟩, rfl⟩ := h
    simp [drawColumn_cell, hbit]
  kept u v hu hv h := by
    have hmiss : ¬ (b.getLsbD (7 - col) = true ∧ u % 64 = (x + col) % 64 ∧ v % 32 = y % 32) := by
      rw [Nat.mod_eq_of_lt hu, Nat.mod_eq_of_lt hv]
      exact fun ⟨hbit, hx, hy⟩ => h ⟨⟨hbit, hx.symm⟩, hy.symm⟩
    rw [drawColumn_cell, decide_eq_false hmiss, Bool.xor_false]
  hit := by
    have hx : (x + col) % 64 < 64 := Nat.mod_lt _ (by decide)
    have hy : y % 32 < 32 := Nat.mod_lt _ (by decide)
    rw [drawColumn_hit, Bool.or_eq_true, Bool.and_eq_true]
    refine or_congr_right ⟨fun ⟨hbit, hcell⟩ => ?_, ?_⟩
    · exact ⟨_, _, hx, hy, ⟨⟨hbit, rfl⟩, rfl⟩, (p.1.cell_mod _ _).trans hcell⟩
    · rintro ⟨_, _, -, -, ⟨⟨hbit, rfl⟩, rfl⟩, hcell⟩
      exact ⟨hbit, (p.1.cell_mod _ _).symm.trans hcell⟩

/-- The first `k` columns of a row: no two of the eight wrap to one cell. -/
theorem foldl_drawColumn_draws (b : Byte) (x y : Nat) (p : Framebuffer × Bool) {k : Nat} (hk : k ≤ 8) :
    Draws (fun u v => (∃ col, col < k ∧ columnCovers b x col u) ∧ y % 32 = v) p
      ((List.range k).foldl (drawColumn b x y) p) := by
  induction k with
  | zero => exact .of_no_cell (by simp) p
  | succ k ih =>
    rw [List.range_succ, List.foldl_append]
    refine ((ih (by omega)).trans (drawColumn_draws b x y _ k) ?_).congr fun u v => ?_
    · rintro u v ⟨⟨col, hcol, -, hu⟩, -⟩ ⟨⟨-, hu'⟩, -⟩
      omega
    · simp only [Nat.exists_lt_succ_right, or_and_right]

theorem drawRow_draws (b : Byte) (x y : Nat) (p : Framebuffer × Bool) :
    Draws (fun u v => rowCovers b x u ∧ y % 32 = v) p (drawRow b x y p) :=
  foldl_drawColumn_draws b x y p (Nat.le_refl 8)

theorem bytesCover_cons {b : Byte} {rest : List Byte} {x y u v : Nat} :
    bytesCover (b :: rest) x y u v ↔ (rowCovers b x u ∧ y % 32 = v) ∨ bytesCover rest x (y + 1) u v := by
  simp only [bytesCover, List.length_cons, Nat.exists_lt_succ_left, List.getD_cons_zero, List.getD_cons_succ,
    Nat.add_zero, Nat.add_assoc, Nat.add_comm 1]

/-- A sprite of at most 32 rows: no two rows wrap to one row of the framebuffer. -/
theorem drawRows_draws {sprite : List Byte} (x y : Nat) (p : Framebuffer × Bool) (hlen : sprite.length ≤ 32) :
    Draws (bytesCover sprite x y) p (drawRows sprite x y p) := by
  induction sprite generalizing y p with
  | nil => exact .of_no_cell (by simp [bytesCover]) p
  | cons b rest ih =>
    rw [List.length_cons] at hlen
    refine ((drawRow_draws b x y p).trans (ih (y + 1) _ (by omega)) ?_).congr fun u v => bytesCover_cons
    rintro u v ⟨-, hv⟩ ⟨row, hrow, -, hv'⟩
    omega

/-! ## DRW (R112) -/

/-- The sprite bytes that DRW reads cover the cells that the rules say (R114). -/
theorem State.spriteCovers_iff {s : State} {n : Nibble} {a b : Byte} {u v : Nat} :
    s.spriteCovers a b n u v ↔ bytesCover (s.spriteBytes n) a.toNat b.toNat u v := by
  simp only [State.spriteCovers, bytesCover, rowCovers, columnCovers, State.spriteBytes, State.readBytes_length]
  refine exists_congr fun row => ?_
  constructor
  · rintro ⟨col, hrow, hcol, hbit, hu, hv⟩
    rw [s.readBytes_getD _ _ _ hrow]
    exact ⟨hrow, ⟨col, hcol, hbit, hu⟩, hv⟩
  · rintro ⟨hrow, ⟨col, hcol, hbit, hu⟩, hv⟩
    rw [s.readBytes_getD _ _ _ hrow] at hbit
    exact ⟨col, hrow, hcol, hbit, hu, hv⟩

theorem drawSprite_draws (s : State) (n : Nibble) (a b : Byte) :
    Draws (s.spriteCovers a b n) (s.FB, false) (drawSprite (s.spriteBytes n) a b s.FB) := by
  have hn := n.isLt
  have hlen : (s.spriteBytes n).length = n.toNat := s.readBytes_length _ _
  exact (drawRows_draws _ _ _ (by omega)).congr fun _ _ => State.spriteCovers_iff

theorem exec_drw_of_outOfBounds {x y n : Nibble} {s : State} (hb : outOfBounds s.I n.toNat = true) :
    exec (.drw x y n) s =
      .next (s.raise .outOfBoundsAccess (encode (.drw x y n)) (firstBadAddress s.I)) :=
  if_pos hb

/-- With the sprite inside memory, DRW is one draw on the cells it covers, then VF, then pc. -/
theorem exec_drw_of_inBounds {x y n : Nibble} {s : State} (hb : outOfBounds s.I n.toNat = false) : ∃ fb hit,
    exec (.drw x y n) s = .next ((s.writeFB fb).writeVF (flagByte hit)).advance ∧
      Draws (s.spriteCovers (s.readV x) (s.readV y) n) (s.FB, false) (fb, hit) := by
  obtain ⟨hb', -⟩ | ⟨-, fb, hit, hdraw, e⟩ := execDrw_cases x y n s
  · cases hb.symm.trans hb'
  · exact ⟨fb, hit, e, hdraw ▸ drawSprite_draws s n _ _⟩

/-- DRW keeps everything but the framebuffer, VF and pc (R112). -/
theorem completes_drw (x y n : Nibble) (s : State) (fb : Framebuffer) (v : Byte) :
    Completes (.drw x y n) s ((s.writeFB fb).writeVF v).advance :=
  .of_advance rfl ⟨rfl, rfl, rfl, rfl⟩ rfl
    (State.keepsRegsBut.writeV (u := s.writeFB fb) (.refl s (writesV s.cfg (.drw x y n))) rfl v)

/-- Settles O21: out of bounds DRW only raises the fault; in bounds it draws once on the cells that the sprite
covers, and VF is the collision of that draw. -/
theorem drwDrawsByXorAndSetsCollision : Obligations.DrwDrawsByXorAndSetsCollision := by
  refine fun x y n => ⟨decodesInBoth_of_eq_encode rfl (fun _ => rfl) rfl, fun s => ⟨fun hn hI => ?_, fun hin => ?_⟩⟩
  · have hb : outOfBounds s.I n.toNat = true := (outOfBounds_iff _ _).2 ⟨hn, by omega⟩
    refine ⟨_, exec_drw_of_outOfBounds hb, ?_⟩
    rw [← firstBadAddress_eq_ofNat_max]
    exact s.raise_entersFault _ _ _
  · have hb : outOfBounds s.I n.toNat = false := by
      rw [Bool.eq_false_iff, Ne, outOfBounds_iff]
      omega
    obtain ⟨fb, hit, e, hd⟩ := exec_drw_of_inBounds (x := x) (y := y) hb
    have hc := completes_drw x y n s fb (flagByte hit)
    refine ⟨_, e, fun u v hu hv => ⟨hd.inverted u v hu hv, hd.kept u v hu hv⟩, fun h => ?_, fun h => ?_,
      hc.pc, fun _ => rfl, hc.regs, rfl, rfl, hc.control⟩
    · have hhit : hit = true := hd.hit.2 (.inr h)
      simp [hhit, flagByte]
    · have hmiss : hit = false := by
        refine Bool.eq_false_iff.2 fun hhit => ?_
        obtain hfalse | ⟨u, v, hu, hv, hcov, hcell⟩ := hd.hit.1 hhit
        · cases hfalse
        · cases hcell.symm.trans (h u v hu hv hcov)
      simp [hmiss, flagByte]

end Sys2Proof.Machine
end

section
/-! SUPPORT. The `EXTENDED` rows of the opcode map (spec/30_encoding.md R77, R78): the word of such an instruction is
that instruction on an `EXTENDED` build and illegal on a `SOURCE` one. -/

namespace Sys2Proof

section
variable {c : Config} {i j : Instr}

theorem wellFormed_iff :
    i.wellFormed c = true ↔ (i.extendedOnly = true → c.profile = .extended) ∧ i.middleOk c = true := by
  rw [Instr.wellFormed, Instr.inProfile, Bool.and_eq_true]
  cases i.extendedOnly <;> simp

/-- Only CLS and RET have a middle byte to check (R75), and both profiles have them. -/
theorem middleOk_of_extendedOnly (he : i.extendedOnly = true) (c : Config) : i.middleOk c = true := by
  cases i with
  | cls | ret => cases he
  | _ => rfl

theorem asExtended_middleOk (c : Config) (i : Instr) : i.middleOk c.asExtended = i.middleOk c := by
  cases i <;> rfl

/-- `EXTENDED` has every instruction of `SOURCE` (R2). -/
theorem wellFormed_asExtended (h : i.wellFormed c = true) : i.wellFormed c.asExtended = true := by
  obtain ⟨-, hm⟩ := wellFormed_iff.1 h
  exact wellFormed_iff.2 ⟨fun _ => rfl, (asExtended_middleOk c i).trans hm⟩

theorem encode_inj_of_wellFormed (hi : i.wellFormed c = true) (hj : j.wellFormed c = true)
    (h : encode i = encode j) : i = j :=
  Decoded.instr.inj ((decode_encode hi).symm.trans ((congrArg (decode c) h).trans (decode_encode hj)))

/-- A `SOURCE` build has no instruction under the word of an `EXTENDED` row: it would be a second instruction of
the `EXTENDED` build with that word. -/
theorem decode_encode_of_extendedOnly (he : i.extendedOnly = true) (hc : c.profile ≠ .extended) :
    decode c (encode i) = .unsupportedOpcode (encode i) := by
  cases hd : decode c (encode i) with
  | unsupportedOpcode v => rw [eq_of_decode_eq_unsupportedOpcode hd]
  | instr j =>
    obtain ⟨hj, hij⟩ := decode_eq_instr_iff.1 hd
    have hi : i.wellFormed c.asExtended = true := wellFormed_iff.2 ⟨fun _ => rfl, middleOk_of_extendedOnly he _⟩
    obtain rfl : i = j := encode_inj_of_wellFormed hi (wellFormed_asExtended hj) hij
    exact absurd ((wellFormed_iff.1 hj).1 he) hc

end

end Sys2Proof

namespace Sys2Proof.Machine

theorem decodesInExtended_of_eq_encode {w : Word} {i : Instr} (he : i.extendedOnly = true) (hw : w = encode i) :
    decodesInExtended w i := by
  intro c
  subst hw
  split
  case isTrue hc => exact decode_encode (wellFormed_iff.2 ⟨fun _ => hc, middleOk_of_extendedOnly he c⟩)
  case isFalse hc => exact decode_encode_of_extendedOnly he hc

end Sys2Proof.Machine
end

section
/-! SUPPORT. Control flow and the call stack (spec/42_flow.md): what RET, JP, SE and CALL answer, by the one check
that each makes. -/

namespace Sys2Proof.Machine

/-- CALL's check is that the stack holds exactly `STACK_DEPTH` entries, so an unbounded stack is never full (R136). -/
theorem StackDepth.full_iff {d : StackDepth} {len : Nat} : StackDepth.full d len = true ↔ d = .bounded len := by
  cases d with
  | bounded depth =>
    rw [StackDepth.full, beq_iff_eq, StackDepth.bounded.injEq]
    exact eq_comm
  | unbounded => simp [StackDepth.full]

section
variable {s : State} {nnn : Addr12} {mid : Byte}

theorem exec_ret_of_nil (hS : s.S = []) :
    exec (.ret mid) s = .next (s.raise .stackUnderflow (encode (.ret mid)) 0) := by
  obtain ⟨-, e⟩ | ⟨_, _, hS', -⟩ := execRet_cases mid s
  · exact e
  · cases hS.symm.trans hS'

theorem exec_ret_of_cons {top : Word} {rest : List Word} (hS : s.S = top :: rest) :
    exec (.ret mid) s = .next (s.dropTop.jump top) := by
  obtain ⟨hS', -⟩ | ⟨_, _, hS', e⟩ := execRet_cases mid s
  · cases hS.symm.trans hS'
  · cases hS.symm.trans hS'
    exact e

theorem exec_call_of_full (hd : s.cfg.stackDepth = .bounded s.S.length) :
    exec (.call nnn) s = .next (s.raise .stackOverflow (encode (.call nnn)) 0) := by
  obtain ⟨-, e⟩ | ⟨hroom, -⟩ := execCall_cases nnn s
  · exact e
  · cases hroom.symm.trans (StackDepth.full_iff.2 hd)

theorem exec_call_of_not_full (hd : s.cfg.stackDepth ≠ .bounded s.S.length) :
    exec (.call nnn) s = .next ((s.push (s.pc + 2)).jump (addressOperand nnn)) := by
  obtain ⟨hfull, -⟩ | ⟨-, e⟩ := execCall_cases nnn s
  · exact absurd (StackDepth.full_iff.1 hfull) hd
  · exact e

/-- A CALL that leaves the core RUNNING did not overflow, so it pushed the return address. -/
theorem call_S_of_running {t : State} (h : exec (.call nnn) s = .next t) (ht : t.running) :
    t.S = (s.pc + 2) :: s.S := by
  obtain ⟨-, e⟩ | ⟨-, e⟩ := execCall_cases nnn s
  all_goals cases h.symm.trans e
  · exact absurd ((s.raise_faulted _ _ _).symm.trans ht) (by decide)
  · rfl

end

/-- SE is one jump, by 4 or by 2 (R134). -/
theorem exec_seByte (x : Nibble) (kk : Byte) (s : State) :
    exec (.seByte x kk) s = .next (s.jump (s.pc + if s.readV x = kk then 4 else 2)) := by
  obtain ⟨hk, e⟩ | ⟨hk, e⟩ := execSeByte_cases x kk s
  · rw [if_pos hk]
    exact e
  · rw [if_neg hk]
    exact e

theorem State.jump_keepsAllButRegs (s : State) (a : Word) : s.keepsAllButRegs (s.jump a) :=
  ⟨fun _ => rfl, fun _ _ => rfl, rfl, rfl, rfl, rfl, rfl⟩

/-- Settles O24: the stack is empty, and RET only raises the fault, or it has a top, and RET drops it and jumps
there. -/
theorem retPopsIntoPc : Obligations.RetPopsIntoPc := by
  refine ⟨decodesInBoth_of_eq_encode rfl middleOk_ret_0E rfl, fun c mid hz => ?_,
    fun mid s => ⟨fun hS => ?_, fun top rest hS => ?_⟩⟩
  · exact decode_encode_of_zeroGroup (i := .ret mid) (.inr rfl) (middleOk_of_lowNibble hz _)
  · exact ⟨_, exec_ret_of_nil hS, s.raise_entersFault _ _ _⟩
  · have hrest : (s.dropTop.jump top).S = rest := congrArg List.tail hS
    exact ⟨_, exec_ret_of_cons hS, rfl, hrest, fun _ => rfl, fun _ => rfl, rfl, fun _ _ => rfl,
      ⟨rfl, rfl, rfl, rfl⟩⟩

/-- Settles O25: JP is a jump to the address operand, and a jump writes pc only. -/
theorem jpSetsPc : Obligations.JpSetsPc := fun nnn =>
  ⟨decodesInBoth_of_eq_encode rfl (fun _ => rfl) rfl, fun s =>
    ⟨s.jump (addressOperand nnn), rfl, addressOperand_toNat nnn, fun _ => rfl, rfl, s.jump_keepsAllButRegs _⟩⟩

/-- Settles O26: SE is a jump by 4 or by 2, and a jump writes pc only. -/
theorem seSkipsOnEquality : Obligations.SeSkipsOnEquality := by
  refine fun x kk => ⟨decodesInBoth_of_eq_encode rfl (fun _ => rfl) rfl, fun s =>
    ⟨_, exec_seByte x kk s, fun hk => ?_, fun hk => ?_, fun _ => rfl, rfl, s.jump_keepsAllButRegs _⟩⟩
  · rw [State.jump_pc, if_pos hk]
    exact BitVec.toNat_add s.pc 4
  · rw [State.jump_pc, if_neg hk]
    exact BitVec.toNat_add s.pc 2

/-- Settles O27: with `STACK_DEPTH` entries on the stack CALL only raises the fault; else it pushes p + 2 and
jumps. -/
theorem callPushesTheReturnAddress : Obligations.CallPushesTheReturnAddress := by
  refine fun nnn => ⟨decodesInExtended_of_eq_encode rfl rfl, fun s => ⟨fun hd => ?_, fun hd => ?_⟩⟩
  · exact ⟨_, exec_call_of_full hd, s.raise_entersFault _ _ _⟩
  · exact ⟨_, exec_call_of_not_full hd, addressOperand_toNat nnn, ⟨s.pc + 2, rfl, BitVec.toNat_add s.pc 2⟩,
      fun _ => rfl, fun _ => rfl, rfl, fun _ _ => rfl, ⟨rfl, rfl, rfl, rfl⟩⟩

/-- Settles O28: what CALL pushed is the top that RET pops, so RET jumps to it and leaves what was below. -/
theorem retResumesAfterTheCall : Obligations.RetResumesAfterTheCall := by
  intro nnn mid s t u _ hcall ht hu
  have hS : u.S = (s.pc + 2) :: s.S := hu.trans (call_S_of_running hcall ht)
  have hrest : (u.dropTop.jump (s.pc + 2)).S = s.S := congrArg List.tail hS
  exact ⟨_, exec_ret_of_cons hS, rfl, hrest⟩

end Sys2Proof.Machine
end

section
/-! SUPPORT. The register-immediate instructions (spec/43_immediate.md): each is one register write, then pc. -/

namespace Sys2Proof.Machine

/-! ## One register write, then pc -/

theorem State.advance_pc_toNat (s : State) : s.advance.pc.toNat = (s.pc.toNat + 2) % 2 ^ 16 :=
  BitVec.toNat_add s.pc 2

theorem State.writeV_advance_readV_self (s : State) (x : Nibble) (v : Byte) :
    (s.writeV x v).advance.readV x = v := by
  rw [State.advance_readV, State.writeV_readV, if_pos rfl]

/-- What a handler leaves that writes V[x] and advances: pc at p + 2, V[x] the one register that may differ, VF
among the others unless it is V[x] (R22). -/
theorem State.writeV_advance_frame (s : State) (x : Nibble) (v : Byte) :
    (s.writeV x v).advance.pc.toNat = (s.pc.toNat + 2) % 2 ^ 16 ∧
      s.keepsRegsBut (s.writeV x v).advance (fun j => j = x) ∧ (s.writeV x v).advance.I = s.I ∧
      s.keepsAllButRegs (s.writeV x v).advance :=
  ⟨(s.writeV x v).advance_pc_toNat, (State.keepsRegsBut.refl s (· = x)).writeV rfl v, rfl,
    fun _ => rfl, fun _ _ => rfl, rfl, rfl, rfl, rfl, rfl⟩

/-- What a handler leaves that writes I and advances: every V register, and all else but I and pc. -/
theorem State.writeI_advance_frame (s : State) (a : Word) :
    s.keepsRegs (s.writeI a).advance ∧ s.keepsAllButRegs (s.writeI a).advance :=
  ⟨fun _ => rfl, fun _ => rfl, fun _ _ => rfl, rfl, rfl, rfl, rfl, rfl⟩

/-! ## The random byte under a mask (R156) -/

theorem State.draw_of_rIn {s : State} {r : Byte} (h : s.rIn = some r) : s.draw = r := by
  rw [State.draw, h]

theorem mask_keeps_no_bit_outside (r kk : Byte) : (r &&& kk) &&& ~~~kk = 0 := by
  rw [BitVec.and_assoc, BitVec.and_not_self]
  exact BitVec.and_zero

/-! ## The four instructions -/

/-- Settles O29: LD Vx, byte writes kk. -/
theorem ldByteLoadsTheImmediate : Obligations.LdByteLoadsTheImmediate := fun x kk =>
  ⟨decodesInBoth_of_eq_encode rfl (fun _ => rfl) rfl, fun s =>
    ⟨(s.writeV x kk).advance, rfl, s.writeV_advance_readV_self x kk, s.writeV_advance_frame x kk⟩⟩

/-- Settles O30: ADD Vx, byte writes the 8-bit sum and no other register. -/
theorem addByteWrapsWithoutFlag : Obligations.AddByteWrapsWithoutFlag := by
  refine fun x kk => ⟨decodesInBoth_of_eq_encode rfl (fun _ => rfl) rfl, fun s =>
    ⟨(s.writeV x (s.readV x + kk)).advance, rfl, ?_, s.writeV_advance_frame x _⟩⟩
  rw [State.writeV_advance_readV_self]
  exact BitVec.toNat_add _ _

/-- Settles O31: LD I, addr writes the address operand, whose value is nnn. -/
theorem ldISetsTheAddressRegister : Obligations.LdISetsTheAddressRegister := fun nnn =>
  ⟨decodesInBoth_of_eq_encode rfl (fun _ => rfl) rfl, fun s =>
    ⟨(s.writeI (addressOperand nnn)).advance, rfl, addressOperand_toNat nnn,
      (s.writeI (addressOperand nnn)).advance_pc_toNat, s.writeI_advance_frame _⟩⟩

/-- Settles O32: RND writes the drawn byte under the mask; the facts about the mask hold of every byte, so of a
free one too. -/
theorem rndMasksTheRandomInput : Obligations.RndMasksTheRandomInput := by
  refine fun x kk => ⟨decodesInBoth_of_eq_encode rfl (fun _ => rfl) rfl, fun s => ?_⟩
  have hx : (s.writeV x (s.draw &&& kk)).advance.readV x = s.draw &&& kk := s.writeV_advance_readV_self x _
  refine ⟨_, rfl, fun r hr => ?_, ?_, fun hkk => ?_, s.writeV_advance_frame x _⟩
  · rw [hx, State.draw_of_rIn hr]
  · rw [hx]
    exact mask_keeps_no_bit_outside s.draw kk
  · rw [hx, hkk]
    exact BitVec.and_zero

end Sys2Proof.Machine
end

section
/-! SUPPORT. The ALU instructions (spec/44_alu.md): OR, AND and XOR write V[x] and then the flag reset of the build;
ADD, SHR and SHL write V[x] and then a flag into VF, so that with x = F the flag survives (R169). -/

namespace Sys2Proof.Machine

/-! ## V[x], then the flag reset of the build, then pc (R170, R172, R174) -/

theorem State.writeV_logicFlag_advance_readV_self (s : State) (x : Nibble) (v : Byte) :
    (s.writeV x v).logicFlag.advance.readV x = if s.cfg.logicResetsVF = true ∧ x = 0xF then 0 else v := by
  rw [State.advance_readV, State.logicFlag_readV, State.writeV_cfg, State.writeV_readV, if_pos rfl]

/-- What OR, AND and XOR share, whatever value they write: beside V[x], and VF where the build resets it, only pc
moves. -/
theorem State.writeV_logicFlag_advance_spec (s : State) (x : Nibble) (v : Byte) :
    (¬ (s.cfg.logicResetsVF = true ∧ x = 0xF) → (s.writeV x v).logicFlag.advance.readV x = v) ∧
      (s.cfg.logicResetsVF = true → (s.writeV x v).logicFlag.advance.readV 0xF = 0) ∧
      s.keepsRegsBut (s.writeV x v).logicFlag.advance
        (fun j => j = x ∨ (s.cfg.logicResetsVF = true ∧ j = 0xF)) ∧
      (s.writeV x v).logicFlag.advance.pc.toNat = (s.pc.toNat + 2) % 2 ^ 16 ∧
      (s.writeV x v).logicFlag.advance.I = s.I ∧ s.keepsAllButRegs (s.writeV x v).logicFlag.advance := by
  have regs := ((State.keepsRegsBut.refl s (fun j => j = x ∨ (s.cfg.logicResetsVF = true ∧ j = 0xF))).writeV
    (.inl rfl) v).logicFlag fun hc => .inr ⟨hc, rfl⟩
  refine ⟨fun hkept => ?_, fun hreset => ?_, regs, ?_, by simp, ?_⟩
  · rw [State.writeV_logicFlag_advance_readV_self, if_neg hkept]
  · rw [State.advance_readV, State.logicFlag_readV, State.writeV_cfg, if_pos ⟨hreset, rfl⟩]
  · rw [State.advance_pc_toNat, State.logicFlag_pc, State.writeV_pc]
  · simp [State.keepsAllButRegs, State.keepsMemory, State.keepsCells, State.keepsControl]

/-! ## V[x], then VF, then pc (R176, R178, R180) -/

theorem State.writeV_writeVF_advance_readV_of_ne (s : State) {x : Nibble} (hx : x ≠ 0xF) (v f : Byte) :
    ((s.writeV x v).writeVF f).advance.readV x = v := by
  rw [State.advance_readV, State.writeVF_readV, if_neg hx, State.writeV_readV, if_pos rfl]

/-- The flag is written last, so VF holds it also when x = F (R169). -/
theorem State.writeV_writeVF_advance_readVF (s : State) (x : Nibble) (v f : Byte) :
    ((s.writeV x v).writeVF f).advance.readV 0xF = f := by
  rw [State.advance_readV, State.writeVF_readV, if_pos rfl]

/-- Beside V[x] and VF only pc moves. -/
theorem State.writeV_writeVF_advance_frame (s : State) (x : Nibble) (v f : Byte) :
    s.keepsRegsBut ((s.writeV x v).writeVF f).advance (fun j => j = x ∨ j = 0xF) ∧
      ((s.writeV x v).writeVF f).advance.pc.toNat = (s.pc.toNat + 2) % 2 ^ 16 ∧
      ((s.writeV x v).writeVF f).advance.I = s.I ∧ s.keepsAllButRegs ((s.writeV x v).writeVF f).advance :=
  ⟨((State.keepsRegsBut.refl s (fun j => j = x ∨ j = 0xF)).writeV (.inl rfl) v).writeV (.inr rfl) f,
    ((s.writeV x v).writeVF f).advance_pc_toNat, rfl, fun _ => rfl, fun _ _ => rfl, rfl, rfl, rfl, rfl, rfl⟩

/-! ## The shifted operand and the flags -/

/-- `SHIFT_SOURCE` chooses a register, and the operand is its value (R178). -/
theorem State.shiftOperand_eq_readV (s : State) (x y : Nibble) :
    s.shiftOperand x y = s.readV (if s.cfg.shiftSource = .vx then x else y) := by
  unfold State.shiftOperand
  cases s.cfg.shiftSource with
  | vx | vy => rfl

theorem carryFlag_of_le {a b : Byte} (h : 256 ≤ a.toNat + b.toNat) : carryFlag a b = 1 := by
  rw [carryFlag, decide_eq_true h]
  rfl

theorem carryFlag_of_lt {a b : Byte} (h : a.toNat + b.toNat < 256) : carryFlag a b = 0 := by
  rw [carryFlag, decide_eq_false (Nat.not_le.2 h)]
  rfl

theorem toNat_and_one (b : Byte) : (b &&& 0x01).toNat = b.toNat % 2 := by
  rw [BitVec.toNat_and]
  exact Nat.and_one_is_mod _

/-- SHR shifts out the remainder of the halving. -/
theorem shrFlag_toNat (src : Byte) : (shrFlag src).toNat = src.toNat % 2 := toNat_and_one src

/-- Bit 7 is the eighth bit of eight, so nothing stands above it. -/
theorem shlFlag_toNat (src : Byte) : (shlFlag src).toNat = src.toNat / 128 := by
  have hlt := src.isLt
  rw [shlFlag, toNat_and_one, BitVec.toNat_ushiftRight, Nat.shiftRight_eq_div_pow]
  omega

theorem toNat_shiftRight_one (src : Byte) : (src >>> 1).toNat = src.toNat / 2 := by
  rw [BitVec.toNat_ushiftRight, Nat.shiftRight_eq_div_pow]

theorem toNat_shiftLeft_one (src : Byte) : (src <<< 1).toNat = src.toNat * 2 % 2 ^ 8 := by
  rw [BitVec.toNat_shiftLeft, Nat.shiftLeft_eq]

/-! ## The six instructions -/

/-- Settles O33: OR writes the bitwise OR, then resets VF where the build says so. -/
theorem orRegIsBitwiseOr : Obligations.OrRegIsBitwiseOr := fun x y =>
  ⟨decodesInExtended_of_eq_encode rfl rfl, fun s =>
    ⟨_, rfl, s.writeV_logicFlag_advance_spec x (s.readV x ||| s.readV y)⟩⟩

/-- Settles O34: AND writes the bitwise AND, then resets VF where the build says so. -/
theorem andRegIsBitwiseAnd : Obligations.AndRegIsBitwiseAnd := fun x y =>
  ⟨decodesInExtended_of_eq_encode rfl rfl, fun s =>
    ⟨_, rfl, s.writeV_logicFlag_advance_spec x (s.readV x &&& s.readV y)⟩⟩

/-- Settles O35: XOR writes the bitwise XOR, then resets VF where the build says so. With x = y the XOR is 0, which
is also what the reset leaves if x = F. -/
theorem xorRegIsBitwiseXor : Obligations.XorRegIsBitwiseXor := by
  refine fun x y => ⟨decodesInExtended_of_eq_encode rfl rfl, fun s => ?_⟩
  obtain ⟨result, reset, frame⟩ := s.writeV_logicFlag_advance_spec x (s.readV x ^^^ s.readV y)
  refine ⟨_, rfl, result, reset, fun hxy => ?_, frame⟩
  have hzero : s.readV x ^^^ s.readV y = 0 := hxy ▸ BitVec.xor_self
  rw [State.writeV_logicFlag_advance_readV_self, hzero, ite_self]

/-- Settles O36: ADD writes the 8-bit sum, then the carry of the old values. -/
theorem addRegSetsTheCarry : Obligations.AddRegSetsTheCarry := by
  refine fun x y => ⟨decodesInExtended_of_eq_encode rfl rfl, fun s =>
    ⟨_, rfl, fun hx => ?_, fun hcarry => ?_, fun hnone => ?_, s.writeV_writeVF_advance_frame x _ _⟩⟩
  · rw [State.writeV_writeVF_advance_readV_of_ne s hx]
    exact BitVec.toNat_add _ _
  · rw [State.writeV_writeVF_advance_readVF, carryFlag_of_le hcarry]
  · rw [State.writeV_writeVF_advance_readVF, carryFlag_of_lt hnone]

/-- Settles O37: SHR writes half of the operand, then the bit shifted out. -/
theorem shrShiftsRightIntoVF : Obligations.ShrShiftsRightIntoVF := by
  refine fun x y => ⟨decodesInExtended_of_eq_encode rfl rfl, fun s =>
    ⟨_, rfl, fun hx => ?_, ?_, s.writeV_writeVF_advance_frame x _ _⟩⟩
  · rw [State.writeV_writeVF_advance_readV_of_ne s hx, toNat_shiftRight_one, State.shiftOperand_eq_readV]
  · rw [State.writeV_writeVF_advance_readVF, shrFlag_toNat, State.shiftOperand_eq_readV]

/-- Settles O38: SHL writes twice the operand in 8 bits, then the bit shifted out. -/
theorem shlShiftsLeftIntoVF : Obligations.ShlShiftsLeftIntoVF := by
  refine fun x y => ⟨decodesInExtended_of_eq_encode rfl rfl, fun s =>
    ⟨_, rfl, fun hx => ?_, ?_, s.writeV_writeVF_advance_frame x _ _⟩⟩
  · rw [State.writeV_writeVF_advance_readV_of_ne s hx, toNat_shiftLeft_one, State.shiftOperand_eq_readV]
  · rw [State.writeV_writeVF_advance_readVF, shlFlag_toNat, State.shiftOperand_eq_readV]

end Sys2Proof.Machine
end

section
/-! SUPPORT. The register block store and load (spec/45_loadstore.md): one bounds check on the block at I, then a
block write to memory or to the registers, then I as the build says. -/

namespace Sys2Proof.Machine

/-! ## The block at I (R55, R194) -/

section
variable {x : Nibble} {s : State}

/-- The last byte of the block is at I + x. -/
theorem outOfBounds_block_iff {a : Word} :
    outOfBounds a (blockLength x) = true ↔ 0xFFF < a.toNat + x.toNat := by
  rw [outOfBounds_iff, blockLength]
  omega

theorem State.raise_outOfBoundsAccess_entersFault (s : State) (opcode a : Word) :
    s.entersFault (s.raise .outOfBoundsAccess opcode (firstBadAddress a)) .outOfBoundsAccess opcode
      (BitVec.ofNat 16 (max a.toNat 0x1000)) := by
  rw [← firstBadAddress_eq_ofNat_max]
  exact s.raise_entersFault _ _ _

theorem State.blockEndI_of_plain (h : s.cfg.loadStoreIncrementsI = false) : s.blockEndI x = s.I := by
  rw [State.blockEndI, h]
  rfl

theorem State.blockEndI_toNat_of_increments (h : s.cfg.loadStoreIncrementsI = true) :
    (s.blockEndI x).toNat = (s.I.toNat + x.toNat + 1) % 2 ^ 16 := by
  rw [State.blockEndI, if_pos h, BitVec.toNat_ofNat]

/-! ## The handlers, by the bounds check -/

theorem exec_storeRegs_of_outOfBounds (h : 0xFFF < s.I.toNat + x.toNat) :
    exec (.storeRegs x) s =
      .next (s.raise .outOfBoundsAccess (encode (.storeRegs x)) (firstBadAddress s.I)) := by
  obtain ⟨-, e⟩ | ⟨hin, -⟩ := execStoreRegs_cases x s
  · exact e
  · cases hin.symm.trans (outOfBounds_block_iff.2 h)

theorem exec_storeRegs_of_inBounds (h : s.I.toNat + x.toNat ≤ 0xFFF) :
    exec (.storeRegs x) s =
      .next ((s.writeBytes s.I.toNat (s.readRegs x)).writeI (s.blockEndI x)).advance := by
  obtain ⟨hout, -⟩ | ⟨-, e⟩ := execStoreRegs_cases x s
  · exact absurd (outOfBounds_block_iff.1 hout) (Nat.not_lt.2 h)
  · exact e

theorem exec_loadRegs_of_outOfBounds (h : 0xFFF < s.I.toNat + x.toNat) :
    exec (.loadRegs x) s =
      .next (s.raise .outOfBoundsAccess (encode (.loadRegs x)) (firstBadAddress s.I)) := by
  obtain ⟨-, e⟩ | ⟨hin, -⟩ := execLoadRegs_cases x s
  · exact e
  · cases hin.symm.trans (outOfBounds_block_iff.2 h)

theorem exec_loadRegs_of_inBounds (h : s.I.toNat + x.toNat ≤ 0xFFF) :
    exec (.loadRegs x) s =
      .next ((s.writeRegs 0 (s.readBytes s.I.toNat (blockLength x))).writeI (s.blockEndI x)).advance := by
  obtain ⟨hout, -⟩ | ⟨-, e⟩ := execLoadRegs_cases x s
  · exact absurd (outOfBounds_block_iff.1 hout) (Nat.not_lt.2 h)
  · exact e

/-! ## What the block writes leave -/

/-- A stored block reads back as V[0] to V[x] (R190). -/
theorem State.writeBytes_readRegs_readByte (hm : s.mem.wf) {a k : Nat} (ha : a + x.toNat ≤ 0xFFF)
    (hk : k ≤ x.toNat) :
    (s.writeBytes a (s.readRegs x)).readByte (a + k) = s.readV (BitVec.ofNat 4 k) := by
  rw [State.writeBytes_readByte_add hm (by rw [State.readRegs_length]; omega)
    (by rw [State.readRegs_length]; omega), State.readRegs_getD _ _ _ hk]

/-- Storing the block keeps every byte outside it (R190). -/
theorem State.writeBytes_readRegs_keepsMemoryOutside (hm : s.mem.wf) {a : Nat} (ha : a + x.toNat ≤ 0xFFF) :
    s.keepsMemoryOutside (s.writeBytes a (s.readRegs x)) a (x.toNat + 1) := by
  have hlen := s.readRegs_length x
  rw [← hlen]
  exact State.writeBytes_keepsMemoryOutside hm (by omega)

/-- A loaded block puts the byte at a + k into V[k] (R192). -/
theorem State.writeRegs_readBytes_readV {a k : Nat} (hk : k ≤ x.toNat) :
    (s.writeRegs 0 (s.readBytes a (blockLength x))).readV (BitVec.ofNat 4 k) = s.readByte (a + k) := by
  have hx := x.isLt
  have hk' : (BitVec.ofNat 4 k).toNat = k := by
    rw [BitVec.toNat_ofNat]
    omega
  have hlen : (s.readBytes a (blockLength x)).length = x.toNat + 1 := s.readBytes_length _ _
  rw [State.writeRegs_readV _ _ _ (by omega), hk', if_pos (by omega), Nat.sub_zero,
    s.readBytes_getD a (blockLength x) k (Nat.lt_succ_of_le hk)]

/-- Loading the block writes only V, I and pc. -/
theorem State.writeRegs_writeI_advance_keepsAllButRegs (s : State) (first : Nat) (bs : List Byte) (i : Word) :
    s.keepsAllButRegs ((s.writeRegs first bs).writeI i).advance := by
  simp [State.keepsAllButRegs, State.keepsMemory, State.keepsCells, State.keepsControl]

end

/-! ## The two instructions -/

/-- Settles O39: out of bounds the store only raises the fault; in bounds it is one block write of V[0] to V[x]. -/
theorem storeRegsWritesTheBlockAtI : Obligations.StoreRegsWritesTheBlockAtI := by
  refine fun x => ⟨decodesInExtended_of_eq_encode rfl rfl, fun s hm => ⟨fun hout => ?_, fun hin => ?_⟩⟩
  · exact ⟨_, exec_storeRegs_of_outOfBounds hout, s.raise_outOfBoundsAccess_entersFault _ _⟩
  · exact ⟨_, exec_storeRegs_of_inBounds hin, fun k hk => State.writeBytes_readRegs_readByte hm hin hk,
      State.writeBytes_readRegs_keepsMemoryOutside hm hin, State.blockEndI_of_plain,
      State.blockEndI_toNat_of_increments, State.advance_pc_toNat _, fun _ => rfl, fun _ _ => rfl, rfl,
      ⟨rfl, rfl, rfl, rfl⟩⟩

/-- Settles O40: out of bounds the load only raises the fault; in bounds it is one write of V[0] to V[x] with the
bytes at I. -/
theorem loadRegsReadsTheBlockAtI : Obligations.LoadRegsReadsTheBlockAtI := by
  refine fun x => ⟨decodesInExtended_of_eq_encode rfl rfl, fun s => ⟨fun hout => ?_, fun hin => ?_⟩⟩
  · exact ⟨_, exec_loadRegs_of_outOfBounds hout, s.raise_outOfBoundsAccess_entersFault _ _⟩
  · have hpc := State.advance_pc_toNat
      ((s.writeRegs 0 (s.readBytes s.I.toNat (blockLength x))).writeI (s.blockEndI x))
    rw [State.writeI_pc, State.writeRegs_pc] at hpc
    exact ⟨_, exec_loadRegs_of_inBounds hin, fun k hk => State.writeRegs_readBytes_readV hk,
      s.keepsRegsBut_writeRegs x _ (s.readBytes_length _ _), State.blockEndI_of_plain,
      State.blockEndI_toNat_of_increments, hpc, s.writeRegs_writeI_advance_keepsAllButRegs _ _ _⟩

end Sys2Proof.Machine
end

section
/-! SUPPORT. Faults (spec/60_exceptions.md R202 to R207): the faults that a transaction can raise, row by row, and the
FAULTED core. -/

namespace Sys2Proof.Machine

/-! ## Fault entry (R202, R203) -/

/-- Settles O11: the fields read back, the rest of the state is the record update's own, and a FAULTED state reports
its status. -/
theorem faultEntryLatchesTheRecord : Obligations.FaultEntryLatchesTheRecord := by
  intro s kind opcode addr
  obtain ⟨hlatched, hkept, -, -⟩ := s.raise_entersFault kind opcode addr
  exact ⟨hlatched, hkept, State.report_of_faulted hlatched.1⟩

/-! ## The FAULTED core (R204) -/

section
variable {s t : State}

theorem State.running_of_status_eq_zero (h : s.status = 0) : s.running := by
  rw [State.running, State.faulted, h]
  rfl

theorem State.running_of_status_eq (hs : s.running) (h : t.status = s.status) : t.running := by
  rw [State.running, State.faulted, h]
  exact hs

theorem transact_step_of_faulted (hf : s.faulted = true) (r : Byte) :
    transact (.step r) s = .next (s, .fault s.status) := by
  rw [transact_step (stepWith_of_faulted _ hf), State.report_of_faulted hf]

theorem State.doLoad_of_faulted (hf : s.faulted = true) (bytes : List Byte) : s.doLoad bytes = s := if_pos hf

theorem transact_load_of_faulted (hf : s.faulted = true) (bytes : List Byte) :
    transact (.load bytes) s = .next (s, .fault s.status) := by
  rw [transact, State.doLoad_of_faulted hf, State.report_of_faulted hf]

/-- On a FAULTED core every transaction but RESET answers the same state. -/
theorem transact_eq_of_faulted {tr : Transaction} {resp : Response} (hf : s.faulted = true) (htr : tr ≠ .reset)
    (h : transact tr s = .next (t, resp)) : t = s := by
  cases tr with
  | reset => exact absurd rfl htr
  | load bytes =>
    cases h.symm.trans (transact_load_of_faulted hf bytes)
    rfl
  | step r =>
    cases h.symm.trans (transact_step_of_faulted hf r)
    rfl
  | fbRead | statusRead | stateRead =>
    cases h
    rfl

end

/-- Settles O13: RESET writes status 0, and every other transaction on a FAULTED core answers the same state, which
is not RUNNING. -/
theorem faultedCoreWaitsForReset : Obligations.FaultedCoreWaitsForReset := by
  refine fun s hf => ⟨transact_step_of_faulted hf, transact_load_of_faulted hf, rfl, rfl, rfl,
    ⟨s.doReset, rfl, State.running_of_status_eq_zero rfl, rfl⟩, fun tr t resp h ht => ?_⟩
  by_contra htr
  cases transact_eq_of_faulted hf htr h
  cases hf.symm.trans ht

/-! ## The faults of the instructions, the steps and the transactions (R207) -/

/-- The faults that a handler can raise from `s`, as kind and FADDR: the rows of R207 for RET, CALL and the three
instructions that access memory at I. How many bytes each of those accesses, and so when it faults, is said by
`execDrw_cases`, `execStoreRegs_cases` and `execLoadRegs_cases`. -/
inductive HandlerFault (s : State) : Instr → FaultKind → Word → Prop
  | underflow {mid : Byte} (hS : s.S = []) : HandlerFault s (.ret mid) .stackUnderflow 0
  | overflow {nnn : Addr12} (hfull : StackDepth.full s.cfg.stackDepth s.S.length = true) :
      HandlerFault s (.call nnn) .stackOverflow 0
  | access {i : Instr}
      (hi : i.mnemonic = "DRW_Vx__Vy__n" ∨ i.mnemonic = "LD__I___Vx" ∨ i.mnemonic = "LD_Vx___I") :
      HandlerFault s i .outOfBoundsAccess (firstBadAddress s.I)

/-- No row depends on the input that a STEP presents. -/
theorem HandlerFault.of_present {s : State} {r : Option Byte} {i : Instr} {k : FaultKind} {addr : Word}
    (h : HandlerFault (s.present r) i k addr) : HandlerFault s i k addr := by
  cases h with
  | underflow hS => exact .underflow hS
  | overflow hfull => exact .overflow hfull
  | access hi => exact .access hi

/-- An instruction raises a fault of its row, with its own word as FOPCODE, or leaves `status`. -/
theorem exec_fault_cases (i : Instr) (s : State) :
    (∃ k addr, HandlerFault s i k addr ∧ exec i s = .next (s.raise k (encode i) addr)) ∨
    ∃ t, exec i s = .next t ∧ t.status = s.status := by
  cases i with
  | cls | jp | ldByte | addByte | addReg | shr | shl | ldI | rnd => exact .inr ⟨_, rfl, rfl⟩
  | orReg | andReg | xorReg => exact .inr ⟨_, rfl, by simp⟩
  | seByte x kk => exact .inr ⟨_, exec_seByte x kk s, rfl⟩
  | ret mid =>
    obtain ⟨hS, e⟩ | ⟨_, _, -, e⟩ := execRet_cases mid s
    · exact .inl ⟨_, _, .underflow hS, e⟩
    · exact .inr ⟨_, e, rfl⟩
  | call nnn =>
    obtain ⟨hfull, e⟩ | ⟨-, e⟩ := execCall_cases nnn s
    · exact .inl ⟨_, _, .overflow hfull, e⟩
    · exact .inr ⟨_, e, rfl⟩
  | drw x y n =>
    obtain ⟨-, e⟩ | ⟨-, _, _, -, e⟩ := execDrw_cases x y n s
    · exact .inl ⟨_, _, .access (.inl rfl), e⟩
    · exact .inr ⟨_, e, rfl⟩
  | storeRegs x =>
    obtain ⟨-, e⟩ | ⟨-, e⟩ := execStoreRegs_cases x s
    · exact .inl ⟨_, _, .access (.inr (.inl rfl)), e⟩
    · exact .inr ⟨_, e, rfl⟩
  | loadRegs x =>
    obtain ⟨-, e⟩ | ⟨-, e⟩ := execLoadRegs_cases x s
    · exact .inl ⟨_, _, .access (.inr (.inr rfl)), e⟩
    · exact .inr ⟨_, e, by simp⟩

/-- The faults that a transaction can raise from `s`, as kind, FOPCODE and FADDR: the whole table of R207. -/
inductive FaultRow (s : State) : Transaction → FaultKind → Word → Word → Prop
  | load {bytes : List Byte} (hl : loadMax < bytes.length) : FaultRow s (.load bytes) .outOfBoundsLoad 0 0x1000
  | fetch {r : Byte} (hp : 0xFFF ≤ s.pc.toNat) :
      FaultRow s (.step r) .outOfBoundsAccess 0 (firstBadAddress s.pc)
  | rejected {r : Byte} (hd : decode s.cfg s.fetchWord = .unsupportedOpcode s.fetchWord) :
      FaultRow s (.step r) .unsupportedOpcode s.fetchWord 0
  | handler {r : Byte} {i : Instr} {k : FaultKind} {addr : Word}
      (hd : decode s.cfg s.fetchWord = .instr i) (hi : HandlerFault s i k addr) :
      FaultRow s (.step r) k s.fetchWord addr

section
variable {s t : State} {tr : Transaction} {resp : Response}

theorem stepWith_of_transact_step {r : Byte} (h : transact (.step r) s = .next (t, resp)) :
    stepWith (some r) s = .next t := by
  obtain ⟨u, hu⟩ := stepWith_answers (some r) s
  cases h.symm.trans (transact_step hu)
  exact hu

/-- A STEP of a RUNNING core enters a fault of the table, or leaves `status`. -/
theorem stepWith_fault_cases {r : Byte} (hs : s.running) (h : stepWith (some r) s = .next t) :
    t.status = s.status ∨
    ∃ k opcode addr, FaultRow s (.step r) k opcode addr ∧ (s.present (some r)).entersFault t k opcode addr := by
  obtain ⟨hf, -⟩ | ⟨-, hp, e⟩ | ⟨-, -, w, hd, e⟩ | ⟨-, -, i, hd, e⟩ := stepWith_cases (some r) s
  · cases hs.symm.trans hf
  · cases h.symm.trans e
    exact .inr ⟨_, _, _, .fetch hp, State.raise_entersFault _ _ _ _⟩
  · cases h.symm.trans e
    cases eq_of_decode_eq_unsupportedOpcode hd
    exact .inr ⟨_, _, _, .rejected hd, State.raise_entersFault _ _ _ _⟩
  · have hw : s.fetchWord = encode i := (decode_eq_instr_iff.1 hd).2
    obtain ⟨k, addr, hi, e'⟩ | ⟨u, e', hu⟩ := exec_fault_cases i (s.present (some r))
    all_goals cases h.symm.trans (e.trans e')
    · refine .inr ⟨_, _, _, .handler hd hi.of_present, ?_⟩
      rw [hw]
      exact State.raise_entersFault _ _ _ _
    · exact .inl hu

/-- What a transaction on a RUNNING core does to `status`: it keeps it, or is RESET and clears it, or enters a fault
of the table, which changes nothing else of R20. -/
theorem transact_fault_cases (hs : s.running) (h : transact tr s = .next (t, resp)) :
    t.status = s.status ∨ t.status = 0 ∨
    ∃ k opcode addr, FaultRow s tr k opcode addr ∧ t.latched k opcode s.pc addr ∧ s.keepsAllButStatus t := by
  cases tr with
  | reset =>
    cases h
    exact .inr (.inl rfl)
  | load bytes =>
    cases h
    obtain ⟨hf, -⟩ | ⟨-, hl, e⟩ | ⟨-, -, e⟩ := s.doLoad_cases bytes
    · cases hs.symm.trans hf
    · obtain ⟨hlatched, hkept, -, -⟩ := s.raise_entersFault .outOfBoundsLoad 0 0x1000
      rw [e]
      exact .inr (.inr ⟨_, _, _, .load hl, hlatched, hkept⟩)
    · rw [e]
      exact .inl rfl
  | step r =>
    obtain hkeep | ⟨k, opcode, addr, hrow, hlatched, hkept, -, -⟩ :=
      stepWith_fault_cases hs (stepWith_of_transact_step h)
    · exact .inl hkeep
    · exact .inr (.inr ⟨k, opcode, addr, hrow, hlatched, hkept⟩)
  | fbRead | statusRead | stateRead =>
    cases h
    exact .inl rfl

end

/-- Settles O12: a transaction that keeps or clears `status` leaves the core RUNNING, and fault entry writes `status`
only. -/
theorem faultingTransactionChangesOnlyStatus : Obligations.FaultingTransactionChangesOnlyStatus := by
  intro s t tr resp hs h ht
  obtain hkeep | hzero | ⟨_, _, _, -, -, hkept⟩ := transact_fault_cases hs h
  · cases ht.symm.trans (State.running_of_status_eq hs hkeep)
  · cases ht.symm.trans (State.running_of_status_eq_zero hzero)
  · exact hkept

/-- Settles O14: the rows of `FaultRow`, one by one, with the code that each kind has. -/
theorem faultRecordsAreTheTableRows : Obligations.FaultRecordsAreTheTableRows := by
  intro s t tr resp h0 h
  obtain hkeep | hzero | ⟨k, opcode, addr, hrow, hlatched, -⟩ :=
    transact_fault_cases (State.running_of_status_eq_zero h0) h
  · exact .inl (hkeep.trans h0)
  · exact .inl hzero
  right
  have ⟨_, hcode, _⟩ := hlatched
  cases hrow with
  | rejected hd => exact .inl ⟨_, rfl, hd, hlatched, hcode⟩
  | load hl => exact .inr (.inr (.inl ⟨_, rfl, hl, hlatched, hcode⟩))
  | fetch hp =>
    rw [firstBadAddress_eq_ofNat_max] at hlatched
    exact .inr (.inr (.inr (.inl ⟨_, rfl, hcode, .inl ⟨hp, hlatched⟩⟩)))
  | handler hd hi =>
    cases hi with
    | underflow hS => exact .inr (.inl ⟨_, _, rfl, hd, hS, hlatched, hcode⟩)
    | overflow => exact .inr (.inr (.inr (.inr ⟨_, _, rfl, hd, hlatched, hcode⟩)))
    | access hi =>
      rw [firstBadAddress_eq_ofNat_max] at hlatched
      exact .inr (.inr (.inr (.inl ⟨_, rfl, hcode, .inr ⟨_, hd, hi, hlatched⟩⟩)))

end Sys2Proof.Machine
end

section
/-! SUPPORT. RESET (spec/70_reset_and_hazards.md R230): what reads back from the reset state. -/

namespace Sys2Proof.Machine

@[simp] theorem State.doReset_readByte (s : State) (a : Nat) : s.doReset.readByte a = 0x00 := rfl

@[simp] theorem State.doReset_readV (s : State) (x : Nibble) : s.doReset.readV x = 0x00 :=
  Vector.getElem_replicate _

/-- Settles O15: RESET answers `doReset` from every state, and the framebuffer of that state is the clear one. -/
theorem resetSetsEveryElement : Obligations.ResetSetsEveryElement := fun s =>
  ⟨s.doReset, rfl, s.doReset_readByte, s.doReset_readV, rfl, rfl, rfl, Framebuffer.clear_cell, rfl,
    State.running_of_status_eq_zero rfl⟩

end Sys2Proof.Machine
end

section
/-! SUPPORT. The decoder on bytes and the step on bytes: the round trip of the encoding (spec/30_encoding.md R70,
R84), and the instruction that a STEP runs (spec/40_step.md R91, notes/assumptions/2.md). -/

namespace Sys2Proof

/-! ## The decoder on bytes (R70) -/

/-- The byte decoder takes two bytes, and what the word they form decodes to decides its answer. -/
theorem decodeBytes_eq_instr_iff {c : Config} {hi lo : Byte} {rest rest' : List Byte} {i : Instr} :
    decodeBytes c (hi :: lo :: rest) = .instr i rest' ↔
      decode c (wordOfBytes hi lo) = .instr i ∧ rest = rest' := by
  rw [decodeBytes]
  cases decode c (wordOfBytes hi lo) with
  | instr j => simp
  | unsupportedOpcode w => simp

/-- Settles O2: the decoder undoes the encoder on words, and the two bytes of a word form that word again. -/
theorem decodeOfEncodeIsTheInstruction : Obligations.DecodeOfEncodeIsTheInstruction := by
  refine fun c i hwf => ⟨decode_encode hwf, fun rest => decodeBytes_eq_instr_iff.2 ⟨?_, rfl⟩⟩
  rw [wordOfBytes_high_low, decode_encode hwf]

end Sys2Proof

namespace Sys2Proof.Machine

/-- Settles O1: each word is the encoding of its instruction, which every build has, or every `EXTENDED` one. -/
theorem sampleWordsDecodeAsTheFormatsSay : Obligations.SampleWordsDecodeAsTheFormatsSay := by
  have both {c : Config} {w : Word} {i : Instr} (he : i.extendedOnly = false) (hm : i.middleOk c = true)
      (hw : w = encode i) : decode c w = .instr i := decode_eq_instr_iff.2 (Decoded.Faithful.of_both he hm hw)
  have extended {c : Config} {w : Word} {i : Instr} (hm : i.middleOk c.asExtended = true) (hw : w = encode i) :
      decode c.asExtended w = .instr i := decode_eq_instr_iff.2 (Decoded.Faithful.of_extended rfl hm hw)
  exact fun c => ⟨both rfl (middleOk_cls_0E c) rfl, both rfl rfl rfl, both rfl rfl rfl, both rfl rfl rfl,
    both rfl rfl rfl, both rfl rfl rfl, extended rfl rfl, extended rfl rfl⟩

/-- Settles O6: the two bytes at pc are the fetched word, so the handler of what they decode to runs on the state
with the input presented, and presenting writes neither the tuple nor the build. -/
theorem stepRunsTheDecodedInstruction : Obligations.StepRunsTheDecodedInstruction := by
  intro s i hs hp _ hbytes
  obtain ⟨hd, -⟩ := decodeBytes_eq_instr_iff.1 hbytes
  exact ⟨stepWith_of_decoded none hs hp hd, rfl, rfl, fun r =>
    ⟨stepWith_of_decoded (some r) hs hp hd, rfl, State.draw_of_rIn rfl⟩⟩

/-- Settles O8: the placed word is fetched next, on the build it is for, and placing it is a write of the two bytes
at pc. -/
theorem placedWordRunsNext : Obligations.PlacedWordRunsNext := by
  intro s w i hm hs hp hd
  have hw : (s.withFetchWord 16 w).fetchWord = tableWord 16 w := s.placeWord_fetchWord hm hp _
  have hkept : s.keepsMemoryOutside (s.writeBytes s.pc.toNat [highByte (tableWord 16 w), lowByte (tableWord 16 w)])
      s.pc.toNat 2 := State.writeBytes_keepsMemoryOutside hm (by simp only [List.length_cons, List.length_nil]; omega)
  refine ⟨stepWith_of_decoded none hs hp ?_, rfl, hkept⟩
  rw [hw]
  exact hd

/-- Settles O10: a step is `stepWith` with no input named, and that always answers. -/
theorem everyStepAnswersANextState : Obligations.EveryStepAnswersANextState := stepWith_answers none

end Sys2Proof.Machine
end

section
/-! SUPPORT. What an instruction does to the build, memory, the framebuffer, the call stack and I, said once
(spec/10_state.md R25, R31, R33; spec/20_memory.md R59, R68), and what only RND does with the random input
(spec/40_step.md R93). -/

namespace Sys2Proof.Machine

/-! ## The effects of an instruction -/

/-- `t` is what instruction `i` leaves of `s`: each part of the state other than V, pc and `status` is as before, or
`i` is one of its writers and wrote what the rules say. -/
structure Effects (i : Instr) (s t : State) : Prop where
  cfg : t.cfg = s.cfg
  mem : t.mem = s.mem ∨ ∃ x, i = .storeRegs x ∧ t.mem = s.mem.writeBytes s.I.toNat (s.readRegs x)
  FB : t.FB = s.FB ∨ (∃ mid, i = .cls mid) ∨ ∃ x y n, i = .drw x y n
  S : t.S = s.S ∨ (∃ mid top, i = .ret mid ∧ s.S = top :: t.S) ∨
    ∃ nnn, i = .call nnn ∧ s.cfg.stackDepth ≠ .bounded s.S.length ∧ t.S = (s.pc + 2) :: s.S
  I : t.I = s.I ∨ (∃ nnn, i = .ldI nnn ∧ t.I = addressOperand nnn) ∨
    (s.cfg.loadStoreIncrementsI = true ∧
      ∃ x, (i = .storeRegs x ∨ i = .loadRegs x) ∧ t.I.toNat ≤ 0x1000)

theorem Effects.of_kept {i : Instr} {s t : State} (hcfg : t.cfg = s.cfg) (hmem : t.mem = s.mem)
    (hFB : t.FB = s.FB) (hS : t.S = s.S) (hI : t.I = s.I) : Effects i s t :=
  ⟨hcfg, .inl hmem, .inl hFB, .inl hS, .inl hI⟩

/-- A block that lies inside memory ends at 0x1000 at most, and only a build that increments I moves it there
(R194). -/
theorem State.blockEndI_cases {s : State} {x : Nibble} (h : outOfBounds s.I (blockLength x) = false) :
    s.blockEndI x = s.I ∨ (s.cfg.loadStoreIncrementsI = true ∧ (s.blockEndI x).toNat ≤ 0x1000) := by
  have hin : ¬ 0xFFF < s.I.toNat + x.toNat := fun hout => by cases h.symm.trans (outOfBounds_block_iff.2 hout)
  cases hinc : s.cfg.loadStoreIncrementsI with
  | false => exact .inl (State.blockEndI_of_plain hinc)
  | true =>
    have hend := State.blockEndI_toNat_of_increments (x := x) hinc
    exact .inr ⟨rfl, by omega⟩

theorem exec_effects_cases (i : Instr) (s : State) : ∃ t, exec i s = .next t ∧ Effects i s t := by
  cases i with
  | jp | ldByte | addByte | addReg | shr | shl | rnd => exact ⟨_, rfl, .of_kept rfl rfl rfl rfl rfl⟩
  | orReg | andReg | xorReg => exact ⟨_, rfl, .of_kept (by simp) (by simp) (by simp) (by simp) (by simp)⟩
  | seByte x kk => exact ⟨_, exec_seByte x kk s, .of_kept rfl rfl rfl rfl rfl⟩
  | cls mid => exact ⟨_, rfl, rfl, .inl rfl, .inr (.inl ⟨mid, rfl⟩), .inl rfl, .inl rfl⟩
  | ldI nnn => exact ⟨_, rfl, rfl, .inl rfl, .inl rfl, .inl rfl, .inr (.inl ⟨nnn, rfl, rfl⟩)⟩
  | ret mid =>
    obtain ⟨-, e⟩ | ⟨top, rest, hS, e⟩ := execRet_cases mid s
    · exact ⟨_, e, .of_kept rfl rfl rfl rfl rfl⟩
    · have hpop : s.S = top :: (s.dropTop.jump top).S := hS.trans (congrArg (top :: ·) (congrArg List.tail hS).symm)
      exact ⟨_, e, rfl, .inl rfl, .inl rfl, .inr (.inl ⟨mid, top, rfl, hpop⟩), .inl rfl⟩
  | call nnn =>
    by_cases hd : s.cfg.stackDepth = .bounded s.S.length
    · exact ⟨_, exec_call_of_full hd, .of_kept rfl rfl rfl rfl rfl⟩
    · exact ⟨_, exec_call_of_not_full hd, rfl, .inl rfl, .inl rfl, .inr (.inr ⟨nnn, rfl, hd, rfl⟩), .inl rfl⟩
  | drw x y n =>
    obtain ⟨-, e⟩ | ⟨-, fb, hit, -, e⟩ := execDrw_cases x y n s
    · exact ⟨_, e, .of_kept rfl rfl rfl rfl rfl⟩
    · exact ⟨_, e, rfl, .inl rfl, .inr (.inr ⟨x, y, n, rfl⟩), .inl rfl, .inl rfl⟩
  | storeRegs x =>
    obtain ⟨-, e⟩ | ⟨hin, e⟩ := execStoreRegs_cases x s
    · exact ⟨_, e, .of_kept rfl rfl rfl rfl rfl⟩
    · refine ⟨_, e, rfl, .inr ⟨x, rfl, rfl⟩, .inl rfl, .inl rfl, ?_⟩
      exact (State.blockEndI_cases hin).imp_right fun ⟨hinc, hend⟩ => .inr ⟨hinc, x, .inl rfl, hend⟩
  | loadRegs x =>
    obtain ⟨-, e⟩ | ⟨hin, e⟩ := execLoadRegs_cases x s
    · exact ⟨_, e, .of_kept rfl rfl rfl rfl rfl⟩
    · refine ⟨_, e, by simp, .inl (by simp), .inl (by simp), .inl (by simp), ?_⟩
      exact (State.blockEndI_cases hin).imp_right fun ⟨hinc, hend⟩ => .inr ⟨hinc, x, .inr rfl, hend⟩

section
variable {i : Instr} {s t : State}

theorem exec_effects (h : exec i s = .next t) : Effects i s t := by
  obtain ⟨u, e, hu⟩ := exec_effects_cases i s
  cases h.symm.trans e
  exact hu

theorem exec_keepsMemory (h : exec i s = .next t) (hi : ∀ x, i ≠ .storeRegs x) : s.keepsMemory t := by
  obtain hmem | ⟨x, rfl, -⟩ := (exec_effects h).mem
  · exact fun a => congrArg (Memory.read · a) hmem
  · exact absurd rfl (hi x)

/-- A `SOURCE` build decodes no word to LD [I], Vx, and a step writes memory only through its handler. -/
theorem step_keepsMemory_of_source (hc : s.cfg.profile = .source) (h : step s = .next t) : s.keepsMemory t := by
  obtain ⟨-, e⟩ | ⟨-, -, e⟩ | ⟨-, -, w, -, e⟩ | ⟨-, -, i, hd, e⟩ := stepWith_cases none s
  case inr.inr.inr =>
    have hwf := (decode_eq_instr_iff.1 hd).1
    have hi : ∀ x, i ≠ .storeRegs x := by
      rintro x rfl
      cases hc.symm.trans ((wellFormed_iff.1 hwf).1 rfl)
    exact exec_keepsMemory (s := s.present none) (e.symm.trans h) hi
  all_goals
    cases h.symm.trans e
    exact fun _ => rfl

end

/-- Settles O43: LD [I], Vx is the one writer among the effects on memory, and no step of a `SOURCE` build runs it. -/
theorem onlyTheBlockStoreWritesMemory : Obligations.OnlyTheBlockStoreWritesMemory := by
  refine ⟨fun i s t h hname => exec_keepsMemory h ?_, fun s t => step_keepsMemory_of_source⟩
  rintro x rfl
  exact hname rfl

/-- Settles O44: the effect on the framebuffer names its writers. -/
theorem onlyClsAndDrwWriteTheFramebuffer : Obligations.OnlyClsAndDrwWriteTheFramebuffer := by
  intro i s t h hcls hdrw u v
  obtain hFB | ⟨mid, rfl⟩ | ⟨x, y, n, rfl⟩ := (exec_effects h).FB
  · rw [hFB]
  · exact absurd rfl hcls
  · exact absurd rfl hdrw

/-- Settles O45: the effect on the stack is a pop by RET or a push by CALL. -/
theorem onlyRetAndCallTouchTheStack : Obligations.OnlyRetAndCallTouchTheStack := by
  intro i s t h
  obtain hS | ⟨mid, top, rfl, hpop⟩ | ⟨nnn, rfl, -, hpush⟩ := (exec_effects h).S
  · exact .inl hS
  · exact .inr (.inl ⟨rfl, top, hpop⟩)
  · exact .inr (.inr ⟨rfl, _, hpush⟩)

/-- Settles O46: the effect on I names its writers, and the block accesses only on a build that increments I. -/
theorem onlyItsWritersChangeI : Obligations.OnlyItsWritersChangeI := by
  intro i s t h hI
  obtain hkept | ⟨nnn, rfl, -⟩ | ⟨hinc, x, rfl | rfl, -⟩ := (exec_effects h).I
  · exact absurd hkept hI
  · exact .inl rfl
  · exact .inr ⟨hinc, .inl rfl⟩
  · exact .inr ⟨hinc, .inr rfl⟩

/-! ## The build (R10, C10) -/

theorem stepWith_cfg {s t : State} {r : Option Byte} (h : stepWith r s = .next t) : t.cfg = s.cfg := by
  obtain ⟨-, e⟩ | ⟨-, -, e⟩ | ⟨-, -, w, -, e⟩ | ⟨-, -, i, -, e⟩ := stepWith_cases r s
  case inr.inr.inr => exact (exec_effects (e.symm.trans h)).cfg
  all_goals
    cases h.symm.trans e
    rfl

theorem State.doLoad_cfg (s : State) (bytes : List Byte) : (s.doLoad bytes).cfg = s.cfg := by
  obtain ⟨-, e⟩ | ⟨-, -, e⟩ | ⟨-, -, e⟩ := s.doLoad_cases bytes
  all_goals simp [e]

/-- Settles O51: RESET and LOAD keep the build by their definition, and a step by its handler's effects. -/
theorem noTransactionChangesTheBuild : Obligations.NoTransactionChangesTheBuild := by
  intro tr s t resp h
  cases tr with
  | step r => exact stepWith_cfg (stepWith_of_transact_step h)
  | load bytes =>
    cases h
    exact s.doLoad_cfg bytes
  | reset | fbRead | statusRead | stateRead =>
    cases h
    rfl

end Sys2Proof.Machine
end

section
/-! SUPPORT. The canonical form of memory (notes/assumptions/7.md): a list in this form is what it reads as. -/

namespace Sys2Proof.Machine

theorem Memory.read_cons_self (b : Nat) (v : Byte) (rest : Memory) : Memory.read ((b, v) :: rest) b = v :=
  if_pos rfl

theorem Memory.read_cons_of_ne {a b : Nat} (h : b ≠ a) (v : Byte) (rest : Memory) :
    Memory.read ((b, v) :: rest) a = Memory.read rest a :=
  if_neg h

theorem Memory.wf_cons_iff {b : Nat} {v : Byte} {rest : Memory} :
    Memory.wf ((b, v) :: rest) ↔ (b ≤ 0xFFF ∧ v ≠ 0) ∧ (∀ c ∈ rest, b < c.1) ∧ rest.wf := by
  simp only [Memory.wf, List.pairwise_cons, List.forall_mem_cons]
  tauto

/-- A canonical memory reads as 0x00 below its first listed address. -/
theorem Memory.wf.read_cons_of_lt {a b : Nat} {v : Byte} {rest : Memory} (h : Memory.wf ((b, v) :: rest))
    (ha : a < b) : Memory.read ((b, v) :: rest) a = 0 := by
  obtain ⟨-, hlow, -⟩ := Memory.wf_cons_iff.1 h
  exact Memory.read_eq_zero_of_lt _ a (List.forall_mem_cons.2 ⟨ha, fun c hc => ha.trans (hlow c hc)⟩)

/-- Two canonical memories that read alike list the same first address: below it the other lists nothing. -/
theorem Memory.wf.head_le {b d : Nat} {v w : Byte} {m q : Memory} (hm : Memory.wf ((b, v) :: m))
    (hq : Memory.wf ((d, w) :: q))
    (h : ∀ a, a ≤ 0xFFF → Memory.read ((b, v) :: m) a = Memory.read ((d, w) :: q) a) : d ≤ b := by
  obtain ⟨⟨hb, hv⟩, -⟩ := Memory.wf_cons_iff.1 hm
  by_contra hlt
  have hread := h b hb
  rw [Memory.read_cons_self, hq.read_cons_of_lt (Nat.not_le.1 hlt)] at hread
  exact hv hread

/-- Settles O50, by induction on the first memory: both list the same first address with the same byte, so the rests
read alike too. -/
theorem wellFormedMemoriesThatReadAlikeAreEqual : Obligations.WellFormedMemoriesThatReadAlikeAreEqual := by
  intro m
  induction m with
  | nil =>
    rintro (_ | ⟨⟨d, w⟩, q⟩) - hq h
    · rfl
    · obtain ⟨⟨hd, hw⟩, -⟩ := Memory.wf_cons_iff.1 hq
      exact absurd ((Memory.read_cons_self d w q).symm.trans (h d hd).symm) hw
  | cons c m ih =>
    obtain ⟨b, v⟩ := c
    rintro (_ | ⟨⟨d, w⟩, q⟩) hm hq h
    · obtain ⟨⟨hb, hv⟩, -⟩ := Memory.wf_cons_iff.1 hm
      exact absurd ((Memory.read_cons_self b v m).symm.trans (h b hb)) hv
    obtain rfl : b = d := Nat.le_antisymm (hq.head_le hm fun a ha => (h a ha).symm) (hm.head_le hq h)
    obtain ⟨⟨hb, -⟩, hmlow, hm'⟩ := Memory.wf_cons_iff.1 hm
    obtain ⟨-, hqlow, hq'⟩ := Memory.wf_cons_iff.1 hq
    obtain rfl : v = w := by simpa only [Memory.read_cons_self] using h b hb
    rw [ih q hm' hq' fun a ha => ?_]
    by_cases hab : b = a
    · subst hab
      rw [Memory.read_eq_zero_of_lt m b hmlow, Memory.read_eq_zero_of_lt q b hqlow]
    · simpa only [Memory.read_cons_of_ne hab] using h a ha

/-! ## A store and the next fetch (R68) -/

/-- Settles O49: the two fetched bytes are bytes k and k + 1 of the stored block. -/
theorem nextFetchSeesTheStore : Obligations.NextFetchSeesTheStore := by
  intro x s t k hm hin hk h hpc
  cases h.symm.trans (exec_storeRegs_of_inBounds hin)
  rw [State.fetchWord, State.readWord, hpc, Nat.add_assoc]
  exact congrArg₂ wordOfBytes (State.writeBytes_readRegs_readByte hm hin (by omega))
    (State.writeBytes_readRegs_readByte hm hin hk)

end Sys2Proof.Machine
end

section
/-! SUPPORT. The random input of a STEP and the parked core (spec/40_step.md R93, R98), and RET on a `SOURCE` build
(spec/10_state.md R32). -/

namespace Sys2Proof.Machine

/-! ## The input reaches RND only (R93) -/

/-- The state with another input in progress: the tuple of R20 and the build are as before. What two STEPs present to
one state differs so: `s.present q` is `(s.present r).withInput q (s.draws + 1)`. -/
def State.withInput (s : State) (r : Option Byte) (n : Nat) : State := { s with rIn := r, draws := n }

theorem State.logicFlag_advance_withInput (s : State) (r : Option Byte) (n : Nat) :
    (s.withInput r n).logicFlag.advance = s.logicFlag.advance.withInput r n := by
  unfold State.logicFlag State.withInput
  split <;> rfl

theorem State.writeRegs_withInput (s : State) (r : Option Byte) (n first : Nat) (bs : List Byte) :
    (s.withInput r n).writeRegs first bs = (s.writeRegs first bs).withInput r n := by
  induction bs generalizing s first with
  | nil => rfl
  | cons v rest ih => exact ih (s.writeV (BitVec.ofNat 4 first) v) (first + 1)

/-- An instruction other than RND does the same whatever the input is. -/
theorem exec_withInput {i : Instr} (hi : ∀ x kk, i ≠ .rnd x kk) (s : State) (r : Option Byte) (n : Nat) :
    ∃ t, exec i s = .next t ∧ exec i (s.withInput r n) = .next (t.withInput r n) := by
  cases i with
  | rnd x kk => exact absurd rfl (hi x kk)
  | cls | jp | ldByte | addByte | addReg | shr | shl | ldI => exact ⟨_, rfl, rfl⟩
  | orReg x _ | andReg x _ | xorReg x _ =>
    exact ⟨_, rfl, congrArg Host.Outcome.next (State.logicFlag_advance_withInput (s.writeV x _) r n)⟩
  | seByte x kk => exact ⟨_, exec_seByte x kk s, exec_seByte x kk (s.withInput r n)⟩
  | ret mid =>
    cases hS : s.S with
    | nil => exact ⟨_, exec_ret_of_nil hS, exec_ret_of_nil (s := s.withInput r n) hS⟩
    | cons top rest => exact ⟨_, exec_ret_of_cons hS, exec_ret_of_cons (s := s.withInput r n) hS⟩
  | call nnn =>
    by_cases hd : s.cfg.stackDepth = .bounded s.S.length
    · exact ⟨_, exec_call_of_full hd, exec_call_of_full (s := s.withInput r n) hd⟩
    · exact ⟨_, exec_call_of_not_full hd, exec_call_of_not_full (s := s.withInput r n) hd⟩
  | drw x y m =>
    by_cases hb : outOfBounds s.I m.toNat = true
    · exact ⟨_, if_pos hb, if_pos hb⟩
    · exact ⟨_, if_neg hb, if_neg hb⟩
  | storeRegs x =>
    by_cases hb : outOfBounds s.I (blockLength x) = true
    · exact ⟨_, if_pos hb, if_pos hb⟩
    · exact ⟨_, if_neg hb, if_neg hb⟩
  | loadRegs x =>
    by_cases hb : outOfBounds s.I (blockLength x) = true
    · exact ⟨_, if_pos hb, if_pos hb⟩
    · refine ⟨_, if_neg hb, (if_neg hb).trans ?_⟩
      exact congrArg (fun u => Host.Outcome.next (State.advance (State.writeI u (s.blockEndI x))))
        (s.writeRegs_withInput r n 0 _)

/-- Two steps from one state that differ in the input leave the same tuple, unless they run RND. -/
theorem stepWith_snapshot_eq {s t u : State} {r q : Option Byte}
    (hno : ∀ x kk, decode s.cfg s.fetchWord ≠ .instr (.rnd x kk)) (ht : stepWith r s = .next t)
    (hu : stepWith q s = .next u) : t.snapshot = u.snapshot := by
  obtain ⟨hf, e⟩ | ⟨hs, hp, e⟩ | ⟨hs, hp, w, hd, e⟩ | ⟨hs, hp, i, hd, e⟩ := stepWith_cases r s
  · cases ht.symm.trans e
    cases hu.symm.trans (stepWith_of_faulted q hf)
    rfl
  · cases ht.symm.trans e
    cases hu.symm.trans (stepWith_of_fetch_out_of_bounds q hs (Nat.lt_succ_of_le hp))
    rfl
  · cases ht.symm.trans e
    cases hu.symm.trans (stepWith_of_rejected q hs hp hd)
    rfl
  · have hi : ∀ x kk, i ≠ .rnd x kk := fun x kk hi => hno x kk (hi ▸ hd)
    obtain ⟨v, hv, hv'⟩ := exec_withInput hi (s.present r) q (s.draws + 1)
    cases ht.symm.trans (e.trans hv)
    cases hu.symm.trans ((stepWith_of_decoded q hs hp hd).trans hv')
    rfl

/-- What STEP returns is read off the tuple. -/
theorem State.report_eq_of_snapshot_eq {t u : State} (h : t.snapshot = u.snapshot) : t.report = u.report := by
  have hstatus : t.status = u.status := congrArg Snapshot.status h
  rw [State.report, State.report, State.faulted, State.faulted, hstatus]

/-- Settles O47: the two steps leave one tuple, and the response is read off it. -/
theorem randomInputReachesOnlyRnd : Obligations.RandomInputReachesOnlyRnd := by
  intro s r q hno
  obtain ⟨t, ht⟩ := stepWith_answers (some r) s
  obtain ⟨u, hu⟩ := stepWith_answers (some q) s
  have hsnap := stepWith_snapshot_eq hno ht hu
  refine ⟨t, u, t.report, transact_step ht, ?_, hsnap⟩
  rw [State.report_eq_of_snapshot_eq hsnap]
  exact transact_step hu

/-! ## The parked core (R98) -/

/-- The word at pc of a parked core is a JP back to it, so a step only presents its input. -/
theorem stepWith_of_parked {s : State} (h : s.parked) (r : Option Byte) : stepWith r s = .next (s.present r) := by
  obtain ⟨hs, hp, hop, hnnn⟩ := h
  have hd : decode s.cfg s.fetchWord = .instr (.jp (nnnField s.fetchWord)) :=
    decode_eq_instr_iff.2 (Decoded.Faithful.of_both rfl rfl (eq_nnnFormat_iff.2 ⟨hop, rfl⟩))
  have hpc : addressOperand (nnnField s.fetchWord) = (s.present r).pc :=
    BitVec.eq_of_toNat_eq ((addressOperand_toNat _).trans hnnn)
  rw [stepWith_of_decoded r hs hp hd, exec, execJp, hpc]
  rfl

/-- Settles O48: a step of a parked core only presents its input, which is no part of the tuple. -/
theorem parkedCoreIsAFixedPoint : Obligations.ParkedCoreIsAFixedPoint := by
  intro s r h
  have ⟨hs, _⟩ := h
  have hreport : (s.present (some r)).report = .ok := State.report_of_running hs
  exact ⟨s.present (some r), hreport ▸ transact_step (stepWith_of_parked h _), rfl, h⟩

/-! ## RET on a `SOURCE` build (R32) -/

/-- Settles O54: the invariant says that the stack is empty, so RET raises the fault with its own word. -/
theorem retAlwaysUnderflowsInSource : Obligations.RetAlwaysUnderflowsInSource := by
  intro mid s hinv hc hs hp hd
  have hw : s.fetchWord = encode (.ret mid) := (decode_eq_instr_iff.1 hd).2
  have he := exec_ret_of_nil (s := s.present none) (mid := mid) (hinv.stackSource hc)
  obtain ⟨hlatched, hkept, -, -⟩ := (s.present none).raise_entersFault .stackUnderflow (encode (.ret mid)) 0
  exact ⟨_, (stepWith_of_decoded none hs hp hd).trans he, hw ▸ hlatched, hkept⟩

end Sys2Proof.Machine
end

section
/-! SUPPORT. Two equal draws (spec/41_display.md R112, R115, R116). -/

namespace Sys2Proof.Machine

section
variable {P : Nat → Nat → Prop} {p q r : Framebuffer × Bool}

/-- The second of two draws on the same cells inverts them back (R116). -/
theorem Draws.restores (h : Draws P p q) (h' : Draws P (q.1, false) r) : r.1 = p.1 := by
  refine Framebuffer.ext_cells _ _ fun u v hu hv => ?_
  by_cases hP : P u v
  · rw [h'.inverted u v hu hv hP, h.inverted u v hu hv hP, Bool.not_not]
  · rw [h'.kept u v hu hv hP, h.kept u v hu hv hP]

/-- The second draw erases what the first one set: it collides on the covered cells that were 0 before both. -/
theorem Draws.second_hit_iff (h : Draws P p q) (h' : Draws P (q.1, false) r) :
    r.2 = true ↔ ∃ u v, u < 64 ∧ v < 32 ∧ P u v ∧ p.1.cell u v = false := by
  rw [h'.hit, or_iff_right Bool.false_ne_true]
  refine exists₂_congr fun u v => and_congr_right fun hu => and_congr_right fun hv => and_congr_right fun hP => ?_
  rw [h.inverted u v hu hv hP, Bool.not_eq_true']

end

theorem flagByte_eq_one_iff {b : Bool} : flagByte b = 1 ↔ b = true := by cases b <;> decide

theorem flagByte_eq_zero_iff {b : Bool} : flagByte b = 0 ↔ b = false := by cases b <;> decide

theorem exists_getLsbD_of_ne_zero {b : Byte} (h : b ≠ 0) : ∃ k, k < 8 ∧ b.getLsbD k = true := by
  by_contra! hnone
  exact h (BitVec.eq_of_getLsbD_eq fun k hk => by simpa using hnone k hk)

section
variable {s t u : State} {x y n : Nibble} {a b : Byte}

/-- Which cells a sprite covers is decided by memory and I. -/
theorem State.spriteCovers_congr (hm : t.mem = s.mem) (hI : t.I = s.I) :
    t.spriteCovers a b n = s.spriteCovers a b n := by
  unfold State.spriteCovers State.readByte
  rw [hm, hI]

/-- A sprite row that is not 0 has a 1-bit, which lands somewhere. -/
theorem State.exists_spriteCovers_of_ne_zero {row : Nat} (hrow : row < n.toNat)
    (h : s.readByte (s.I.toNat + row) ≠ 0) : ∃ cx cy, cx < 64 ∧ cy < 32 ∧ s.spriteCovers a b n cx cy := by
  obtain ⟨k, hk, hbit⟩ := exists_getLsbD_of_ne_zero h
  refine ⟨(a.toNat + (7 - k)) % 64, (b.toNat + row) % 32, Nat.mod_lt _ (by decide), Nat.mod_lt _ (by decide),
    row, 7 - k, hrow, by omega, ?_, rfl, rfl⟩
  rwa [Nat.sub_sub_self (Nat.le_of_lt_succ hk)]

theorem State.not_spriteCovers_of_zero (h : ∀ row, row < n.toNat → s.readByte (s.I.toNat + row) = 0) {cx cy : Nat} :
    ¬ s.spriteCovers a b n cx cy := by
  rintro ⟨row, col, hrow, -, hbit, -⟩
  rw [h row hrow] at hbit
  simp at hbit

/-- DRW inside memory as one draw: VF is the collision flag, and memory and I stay. -/
theorem draws_of_exec_drw (hb : outOfBounds s.I n.toNat = false) (h : exec (.drw x y n) s = .next t) :
    ∃ hit, t.readV 0xF = flagByte hit ∧ t.mem = s.mem ∧ t.I = s.I ∧
      Draws (s.spriteCovers (s.readV x) (s.readV y) n) (s.FB, false) (t.FB, hit) := by
  obtain ⟨fb, hit, e, hd⟩ := exec_drw_of_inBounds (x := x) (y := y) hb
  cases h.symm.trans e
  exact ⟨hit, by simp, rfl, rfl, hd⟩

/-- Two DRWs with the same operands and coordinates: the framebuffer is as before, VF after the first is its
collision with the cells that were 1, and VF after the second its collision with those that were 0. -/
theorem draws_of_exec_drw_twice (hb : outOfBounds s.I n.toNat = false) (h : exec (.drw x y n) s = .next t)
    (hx : t.readV x = s.readV x) (hy : t.readV y = s.readV y) (h' : exec (.drw x y n) t = .next u) :
    ∃ hit hit', t.readV 0xF = flagByte hit ∧ u.readV 0xF = flagByte hit' ∧ u.FB = s.FB ∧
      Draws (s.spriteCovers (s.readV x) (s.readV y) n) (s.FB, false) (t.FB, hit) ∧
      (hit' = true ↔ ∃ cx cy, cx < 64 ∧ cy < 32 ∧
        s.spriteCovers (s.readV x) (s.readV y) n cx cy ∧ s.FB.cell cx cy = false) := by
  obtain ⟨hit, hVF, hmem, hI, hd⟩ := draws_of_exec_drw hb h
  obtain ⟨hit', hVF', -, -, hd'⟩ := draws_of_exec_drw (hI ▸ hb) h'
  rw [hx, hy, State.spriteCovers_congr hmem hI] at hd'
  exact ⟨hit, hit', hVF, hVF', hd.restores hd', hd, hd.second_hit_iff hd'⟩

end

/-- Settles O22: two draws on the same cells restore them, and the second collides on those that were 0. -/
theorem drawingTwiceRestoresTheFramebuffer : Obligations.DrawingTwiceRestoresTheFramebuffer := by
  intro x y n s t u hb h hx hy h'
  obtain ⟨hit, hit', hVF, hVF', hFB, hd, hhit'⟩ := draws_of_exec_drw_twice hb h hx hy h'
  rw [hVF, hVF', flagByte_eq_one_iff, flagByte_eq_zero_iff, flagByte_eq_zero_iff]
  have hmiss' : hit' = false ↔ ∀ cx cy, cx < 64 → cy < 32 →
      s.spriteCovers (s.readV x) (s.readV y) n cx cy → s.FB.cell cx cy = true := by
    rw [← Bool.not_eq_true, hhit']
    simp only [not_exists, not_and, Bool.not_eq_false]
  refine ⟨hFB, hhit', hmiss', ?_, fun hzero => ?_⟩
  · rintro hmiss ⟨row, hrow, hbyte⟩
    obtain ⟨cx, cy, hcx, hcy, hcov⟩ := State.exists_spriteCovers_of_ne_zero hrow hbyte
    refine hhit'.2 ⟨cx, cy, hcx, hcy, hcov, Bool.eq_false_iff.2 fun hcell => ?_⟩
    cases hmiss.symm.trans (hd.hit.2 (.inr ⟨cx, cy, hcx, hcy, hcov, hcell⟩))
  · exact hmiss'.2 fun _ _ _ _ hcov => absurd hcov (State.not_spriteCovers_of_zero hzero)

/-- The one pixel of the sprite at 0x300 is already set at (0, 0). -/
def pixelAlreadySet : State :=
  { State.reset with mem := [(0x300, 0x80)], I := 0x300, FB := Framebuffer.clear.flip 0 0 }

/-- Refutes O23: where the cell under the sprite's one pixel was 1, the first draw erases it and the second erases
nothing, so VF is 0. -/
theorem not_secondDrawAlwaysCollides : ¬ Obligations.SecondDrawAlwaysCollides := by
  intro h
  have hVF := h 0 1 1 pixelAlreadySet _ _ (by decide) rfl (by decide) (by decide) rfl ⟨0, by decide, by decide⟩
  exact absurd hVF (by decide)

end Sys2Proof.Machine
end

section
/-! SUPPORT. The invariant of the machine (spec/10_state.md R25, R26, R30 to R32, R36): RESET meets it, and every
transaction keeps it. -/

namespace Sys2Proof.Machine

/-! ## The fault latch (R36, R207) -/

/-- The FOPCODE and FADDR that the row of R207 allows a fault. -/
def FaultKind.allows : FaultKind → Word → Word → Prop
  | .outOfBoundsLoad, opcode, addr => opcode = 0 ∧ addr = 0x1000
  | .outOfBoundsAccess, _, addr => 0x1000 ≤ addr.toNat
  | .unsupportedOpcode, _, addr => addr = 0
  | .stackUnderflow, _, addr => addr = 0
  | .stackOverflow, _, addr => addr = 0

theorem firstBadAddress_allowed (opcode a : Word) : FaultKind.outOfBoundsAccess.allows opcode (firstBadAddress a) := by
  rw [FaultKind.allows, firstBadAddress_toNat]
  exact Nat.le_max_right _ _

theorem HandlerFault.allowed {s : State} {i : Instr} {k : FaultKind} {addr : Word} (h : HandlerFault s i k addr)
    (opcode : Word) : k.allows opcode addr := by
  cases h with
  | underflow | overflow => rfl
  | access => exact firstBadAddress_allowed opcode s.I

theorem State.raise_statusLegal (s : State) {k : FaultKind} {opcode addr : Word} (h : k.allows opcode addr) :
    (s.raise k opcode addr).statusLegal := by
  obtain ⟨hf, hcode, hreserved, hop, -, haddr⟩ := s.raise_latched k opcode addr
  refine .inr ⟨hf, hreserved, ?_⟩
  rw [hcode, hop, haddr]
  -- the code of each kind decides which of the three clauses speaks of it
  cases k <;> simpa [FaultKind.allows, FaultKind.code] using h

section
variable {s t : State}

theorem State.Inv.raise (h : s.Inv) {k : FaultKind} {opcode addr : Word} (hk : k.allows opcode addr) :
    (s.raise k opcode addr).Inv :=
  ⟨h.build, h.memory, h.pcRange, h.indexRange, h.indexPlain, h.stackDepth, h.stackEntries, h.stackSource,
    s.raise_statusLegal hk⟩

theorem State.Inv.present (h : s.Inv) (r : Option Byte) : (s.present r).Inv :=
  ⟨h.build, h.memory, h.pcRange, h.indexRange, h.indexPlain, h.stackDepth, h.stackEntries, h.stackSource, h.status⟩

theorem State.Inv.writeBytes (h : s.Inv) (a : Nat) (bs : List Byte) : (s.writeBytes a bs).Inv :=
  ⟨h.build, Memory.writeBytes_wf _ h.memory a bs, h.pcRange, h.indexRange, h.indexPlain, h.stackDepth,
    h.stackEntries, h.stackSource, h.status⟩

theorem State.statusLegal_of_status_eq (hs : s.statusLegal) (h : t.status = s.status) : t.statusLegal := by
  unfold State.statusLegal State.faulted State.statusReserved State.faultCode State.faultOpcode State.faultAddr
  rw [h]
  exact hs

/-! ## The parts of the invariant under an instruction that completes -/

variable {i : Instr}

/-- A jump lands at 0xFFF at most, RET at a stacked address, and everything else at p + 4 at most (R28, R30). -/
theorem nextPc_le (hp : s.pc.toNat ≤ 0xFFE) (hS : ∀ a ∈ s.S, a.toNat ≤ 0x1000) (i : Instr) :
    nextPc i s ≤ 0x1002 := by
  cases i with
  | jp nnn | call nnn =>
    have := nnn.isLt
    simp only [nextPc]
    omega
  | ret mid =>
    cases hs : s.S with
    | nil => simp [nextPc, hs]
    | cons top rest =>
      have := hS top (by simp [hs])
      simp only [nextPc, hs, List.headD_cons]
      omega
  | seByte x kk =>
    simp only [nextPc]
    split <;> omega
  | _ =>
    simp only [nextPc]
    omega

theorem Effects.mem_wf (he : Effects i s t) (h : s.mem.wf) : t.mem.wf := by
  obtain hmem | ⟨x, -, hmem⟩ := he.mem
  all_goals rw [hmem]
  · exact h
  · exact Memory.writeBytes_wf _ h _ _

theorem Effects.index_le (he : Effects i s t) (h : s.I.toNat ≤ 0x1000) : t.I.toNat ≤ 0x1000 := by
  obtain hI | ⟨nnn, -, hI⟩ | ⟨-, x, -, hI⟩ := he.I
  · rw [hI]
    exact h
  · have := nnn.isLt
    rw [hI, addressOperand_toNat]
    omega
  · exact hI

/-- Only the block accesses of an incrementing `EXTENDED` build move I past 0xFFF (R26). -/
theorem Effects.index_plain (he : Effects i s t) (hwf : i.wellFormed s.cfg = true)
    (hplain : ¬ (s.cfg.profile = .extended ∧ s.cfg.loadStoreIncrementsI = true)) (h : s.I.toNat ≤ 0xFFF) :
    t.I.toNat ≤ 0xFFF := by
  obtain hI | ⟨nnn, -, hI⟩ | ⟨hinc, x, hi, -⟩ := he.I
  · rw [hI]
    exact h
  · have := nnn.isLt
    rw [hI, addressOperand_toNat]
    omega
  · have hext : i.extendedOnly = true := by rcases hi with rfl | rfl <;> rfl
    exact absurd ⟨(wellFormed_iff.1 hwf).1 hext, hinc⟩ hplain

theorem StackDepth.admits_of_le {d : StackDepth} {m n : Nat} (h : StackDepth.admits d n) (hmn : m ≤ n) :
    StackDepth.admits d m := by
  cases d with
  | bounded depth => exact hmn.trans h
  | unbounded => trivial

/-- A stack that is within its depth and not full has room for one more entry. -/
theorem StackDepth.admits_succ {d : StackDepth} {n : Nat} (h : StackDepth.admits d n) (hroom : d ≠ .bounded n) :
    StackDepth.admits d (n + 1) := by
  cases d with
  | bounded depth => exact Nat.lt_of_le_of_ne h fun e => hroom (congrArg StackDepth.bounded e.symm)
  | unbounded => trivial

theorem Effects.stack_admits (he : Effects i s t) (h : StackDepth.admits s.cfg.stackDepth s.S.length) :
    StackDepth.admits s.cfg.stackDepth t.S.length := by
  obtain hS | ⟨mid, top, -, hpop⟩ | ⟨nnn, -, hroom, hpush⟩ := he.S
  · rw [hS]
    exact h
  · rw [hpop] at h
    exact StackDepth.admits_of_le h (Nat.le_succ _)
  · rw [hpush]
    exact StackDepth.admits_succ h hroom

/-- CALL runs at 0xFFE at most, so the return address is at most 0x1000 (R30). -/
theorem Effects.stack_entries (he : Effects i s t) (hp : s.pc.toNat ≤ 0xFFE) (h : ∀ a ∈ s.S, a.toNat ≤ 0x1000) :
    ∀ a ∈ t.S, a.toNat ≤ 0x1000 := by
  obtain hS | ⟨mid, top, -, hpop⟩ | ⟨nnn, -, -, hpush⟩ := he.S
  · rw [hS]
    exact h
  · rw [hpop] at h
    exact (List.forall_mem_cons.1 h).2
  · have hreturn : (s.pc + 2).toNat = (s.pc.toNat + 2) % 2 ^ 16 := BitVec.toNat_add s.pc 2
    rw [hpush]
    exact List.forall_mem_cons.2 ⟨by omega, h⟩

/-- A `SOURCE` build has no CALL, so its stack stays empty (R32). -/
theorem Effects.stack_source (he : Effects i s t) (hwf : i.wellFormed s.cfg = true) (hc : s.cfg.profile = .source)
    (h : s.S = []) : t.S = [] := by
  obtain hS | ⟨mid, top, -, hpop⟩ | ⟨nnn, rfl, -, -⟩ := he.S
  · exact hS.trans h
  · cases h.symm.trans hpop
  · cases hc.symm.trans ((wellFormed_iff.1 hwf).1 rfl)

/-- An instruction of the build keeps the invariant, from any pc that a fetch succeeds at. -/
theorem exec_inv (h : s.Inv) (hp : s.pc.toNat ≤ 0xFFE) (hwf : i.wellFormed s.cfg = true)
    (he : exec i s = .next t) : t.Inv := by
  obtain ⟨k, addr, hk, e⟩ | ⟨u, e, hstatus⟩ := exec_fault_cases i s
  all_goals cases he.symm.trans e
  · exact h.raise (hk.allowed _)
  have hpc : t.pc.toNat ≤ 0x1002 := by
    obtain ⟨_, _, _, rfl⟩ | hc := exec_next_cases he
    · exact h.pcRange
    · exact hc.pc ▸ nextPc_le hp h.stackEntries i
  have heff := exec_effects he
  have hcfg := heff.cfg
  exact
    { build := hcfg ▸ h.build
      memory := heff.mem_wf h.memory
      pcRange := hpc
      indexRange := heff.index_le h.indexRange
      indexPlain := fun hplain => heff.index_plain hwf (hcfg ▸ hplain) (h.indexPlain (hcfg ▸ hplain))
      stackDepth := hcfg ▸ heff.stack_admits h.stackDepth
      stackEntries := heff.stack_entries hp h.stackEntries
      stackSource := fun hc => heff.stack_source hwf (hcfg ▸ hc) (h.stackSource (hcfg ▸ hc))
      status := State.statusLegal_of_status_eq h.status hstatus }

/-! ## The step and the transactions -/

theorem stepWith_inv {r : Option Byte} (h : s.Inv) (ht : stepWith r s = .next t) : t.Inv := by
  obtain ⟨-, e⟩ | ⟨-, -, e⟩ | ⟨-, -, w, -, e⟩ | ⟨-, hp, i, hd, e⟩ := stepWith_cases r s
  case inr.inr.inr =>
    exact exec_inv (h.present r) hp (decode_eq_instr_iff.1 hd).1 (e.symm.trans ht)
  all_goals cases ht.symm.trans e
  · exact h
  · exact (h.present r).raise (firstBadAddress_allowed _ _)
  · exact (h.present r).raise rfl

theorem State.resetWith_inv {c : Config} (hc : c.valid = true) : (State.resetWith c).Inv where
  build := hc
  memory := Memory.wf_nil
  pcRange := (by decide : (0x0200 : Word).toNat ≤ 0x1002)
  indexRange := Nat.zero_le _
  indexPlain _ := Nat.zero_le _
  stackDepth := by
    cases hd : c.stackDepth <;> simp [State.resetWith, StackDepth.admits, hd]
  stackEntries _ h := absurd h List.not_mem_nil
  stackSource _ := rfl
  status := .inl rfl

/-- RESET is the reset state of the build but for the counter of the random source (R232). -/
theorem State.doReset_inv (hc : s.cfg.valid = true) : s.doReset.Inv :=
  have h := State.resetWith_inv hc
  ⟨h.build, h.memory, h.pcRange, h.indexRange, h.indexPlain, h.stackDepth, h.stackEntries, h.stackSource, h.status⟩

theorem State.Inv.doLoad (h : s.Inv) (bytes : List Byte) : (s.doLoad bytes).Inv := by
  obtain ⟨-, e⟩ | ⟨-, -, e⟩ | ⟨-, -, e⟩ := s.doLoad_cases bytes
  all_goals rw [e]
  · exact h
  · exact h.raise ⟨rfl, rfl⟩
  · exact h.writeBytes _ _

end

/-- Settles O52: a step is fault entry, which latches a legal record, or an instruction of the build. -/
theorem stepKeepsTheInvariant : Obligations.StepKeepsTheInvariant := fun _ _ => stepWith_inv

/-- Settles O53: RESET meets the invariant, LOAD is fault entry or a block write, STEP keeps it with any input, and the
reads answer the same state. -/
theorem transactionsKeepTheInvariant : Obligations.TransactionsKeepTheInvariant := by
  intro tr s t resp h ht
  cases tr with
  | step r => exact stepWith_inv h (stepWith_of_transact_step ht)
  | reset =>
    cases ht
    exact State.doReset_inv h.build
  | load bytes =>
    cases ht
    exact h.doLoad bytes
  | fbRead | statusRead | stateRead =>
    cases ht
    exact h

/-- Settles O16: the invariant asks of the reset state only that the build be valid, and the default build is. -/
theorem resetMeetsTheInvariant : Obligations.ResetMeetsTheInvariant :=
  ⟨State.resetWith_inv (by decide), fun _ => State.resetWith_inv⟩

end Sys2Proof.Machine
end
